-- ==== Sys2Proof/Config.lean ====
section
/-! DEFINITION. What is fixed when one SHA2-CORE instance is built: the variant and every quantity that
depends on it (00_scope.md rules R3 and R11), and the values the spec leaves free, as constants with no body. -/

namespace Sys2Proof

/-- The build-time parameter `VARIANT` of rule R3: one instance implements exactly one of the two. -/
inductive Variant where
  | sha256
  | sha512
deriving DecidableEq, Repr, Inhabited

namespace Variant

/-- `W`, the word width in bits (rule R11). -/
def W : Variant → Nat
  | sha256 => 32
  | sha512 => 64

/-- `NB`, the bytes of a word (rule R11). -/
def NB : Variant → Nat
  | sha256 => 4
  | sha512 => 8

/-- `B`, the block size in bytes (rule R11). -/
def B : Variant → Nat
  | sha256 => 64
  | sha512 => 128

/-- `R`, the round iterations of one block and the length of its schedule (rule R11). -/
def R : Variant → Nat
  | sha256 => 64
  | sha512 => 80

/-- `L`, the width in bits of `LENGTH` and of the length field (rule R11). -/
def L : Variant → Nat
  | sha256 => 64
  | sha512 => 128

/-- `Lf`, the size in bytes of the length field (rule R11). -/
def Lf : Variant → Nat
  | sha256 => 8
  | sha512 => 16

/-- `D`, the size in bytes of the digest (rule R11). -/
def D : Variant → Nat
  | sha256 => 32
  | sha512 => 64

/-- `FW`, the width in bits of `FILLED` (rules R11 and R40). -/
def FW : Variant → Nat
  | sha256 => 6
  | sha512 => 7

end Variant

namespace Config

/-- The variant of the instance whose state right after reset is `Machine.State.reset`.
The spec takes `VARIANT` as an argument of the whole machine (rule R3). Every definition of the model takes
the variant from its arguments, and `Machine.State.resetOf` gives the reset state of either variant.
DESIGN CHOICE (log entry 1). -/
def variant : Variant := .sha256

/-- What a read of the stale buffer byte `j` gives (rule R38 leaves it unspecified). A free value: it has no
body, so no proof can see it. `COMPRESS` can meet it only in a state that breaks rule R37, which no run reaches.
DESIGN CHOICE (log entry 3). -/
opaque staleByte : Nat → BitVec 8

/-- The bits that the `n`-th power-up leaves in the state elements of an instance before its first hardware reset
(rule R401: "the state is unspecified"), piece `i` of them. A free value, the same for every instance at one `n`: the spec
leaves open whether two instances agree. DESIGN CHOICE (log entry 8). -/
opaque powerUpBits : Nat → Nat → Nat

end Config

end Sys2Proof
end

