-- ==== Sys2Proof/Word.lean ====
section
/-! DEFINITION. The two kinds of bits of SHA2-CORE: bytes (00_scope.md rule R15) and `W`-bit words (rule R14).
The operators of rule R14 are those of `BitVec` at width `W`: `+` wraps modulo `2^W`, `>>>` fills with zeros,
`<<<` truncates. No value is signed (rule R13). -/

namespace Sys2Proof

/-- An 8-bit unsigned value (rule R15). -/
abbrev Byte := BitVec 8

/-- A word of the variant, `W` bits wide (rule R14). -/
abbrev Word (v : Variant) := BitVec v.W

/-- `zeros(n)`, `n` bytes of value `0x00` (rule R15). -/
def zeros (n : Nat) : List Byte := List.replicate n 0

end Sys2Proof
end

