-- ==== Sys2Proof/Machine/Constants.lean ====
section
/-! DEFINITION. The constants of the two variants: the initial hash words (10_state.md rules R34 and R35), the round
constants (41_compression.md rules R172 and R173) and the rotation amounts (rule R166). They are constants, not state
(rules R46 and R171). -/

namespace Sys2Proof.Machine

/-- `IV256[0..7]` (rule R34). -/
def iv256 : Vector (BitVec 32) 8 :=
  #v[0x6a09e667, 0xbb67ae85, 0x3c6ef372, 0xa54ff53a, 0x510e527f, 0x9b05688c, 0x1f83d9ab, 0x5be0cd19]

/-- `IV512[0..7]` (rule R35). -/
def iv512 : Vector (BitVec 64) 8 :=
  #v[0x6a09e667f3bcc908, 0xbb67ae8584caa73b, 0x3c6ef372fe94f82b, 0xa54ff53a5f1d36f1,
     0x510e527fade682d1, 0x9b05688c2b3e6c1f, 0x1f83d9abfb41bd6b, 0x5be0cd19137e2179]

/-- The initial hash words of a variant (rules R34, R35 and R46). -/
def iv : (v : Variant) → Vector (Word v) 8
  | .sha256 => iv256
  | .sha512 => iv512

/-- One row of the tables of rules R172 and R173: row `t` holds `K_t` to `K_{t+3}` in its columns `+0` to `+3`. -/
def tableRow {w : Nat} (plus0 plus1 plus2 plus3 : BitVec w) : List (BitVec w) := [plus0, plus1, plus2, plus3]

/-- Rows 0 to 12 of rule R172. -/
def k256Part0 : List (BitVec 32) :=
  tableRow 0x428a2f98 0x71374491 0xb5c0fbcf 0xe9b5dba5 ++
  tableRow 0x3956c25b 0x59f111f1 0x923f82a4 0xab1c5ed5 ++
  tableRow 0xd807aa98 0x12835b01 0x243185be 0x550c7dc3 ++
  tableRow 0x72be5d74 0x80deb1fe 0x9bdc06a7 0xc19bf174

/-- Rows 16 to 28 of rule R172. -/
def k256Part1 : List (BitVec 32) :=
  tableRow 0xe49b69c1 0xefbe4786 0x0fc19dc6 0x240ca1cc ++
  tableRow 0x2de92c6f 0x4a7484aa 0x5cb0a9dc 0x76f988da ++
  tableRow 0x983e5152 0xa831c66d 0xb00327c8 0xbf597fc7 ++
  tableRow 0xc6e00bf3 0xd5a79147 0x06ca6351 0x14292967

/-- Rows 32 to 44 of rule R172. -/
def k256Part2 : List (BitVec 32) :=
  tableRow 0x27b70a85 0x2e1b2138 0x4d2c6dfc 0x53380d13 ++
  tableRow 0x650a7354 0x766a0abb 0x81c2c92e 0x92722c85 ++
  tableRow 0xa2bfe8a1 0xa81a664b 0xc24b8b70 0xc76c51a3 ++
  tableRow 0xd192e819 0xd6990624 0xf40e3585 0x106aa070

/-- Rows 48 to 60 of rule R172. -/
def k256Part3 : List (BitVec 32) :=
  tableRow 0x19a4c116 0x1e376c08 0x2748774c 0x34b0bcb5 ++
  tableRow 0x391c0cb3 0x4ed8aa4a 0x5b9cca4f 0x682e6ff3 ++
  tableRow 0x748f82ee 0x78a5636f 0x84c87814 0x8cc70208 ++
  tableRow 0x90befffa 0xa4506ceb 0xbef9a3f7 0xc67178f2

/-- The round constants `K_0 .. K_63` of rule R172. -/
def k256 : List (BitVec 32) := k256Part0 ++ k256Part1 ++ k256Part2 ++ k256Part3

/-- Rows 0 to 12 of rule R173. -/
def k512Part0 : List (BitVec 64) :=
  tableRow 0x428a2f98d728ae22 0x7137449123ef65cd 0xb5c0fbcfec4d3b2f 0xe9b5dba58189dbbc ++
  tableRow 0x3956c25bf348b538 0x59f111f1b605d019 0x923f82a4af194f9b 0xab1c5ed5da6d8118 ++
  tableRow 0xd807aa98a3030242 0x12835b0145706fbe 0x243185be4ee4b28c 0x550c7dc3d5ffb4e2 ++
  tableRow 0x72be5d74f27b896f 0x80deb1fe3b1696b1 0x9bdc06a725c71235 0xc19bf174cf692694

/-- Rows 16 to 28 of rule R173. -/
def k512Part1 : List (BitVec 64) :=
  tableRow 0xe49b69c19ef14ad2 0xefbe4786384f25e3 0x0fc19dc68b8cd5b5 0x240ca1cc77ac9c65 ++
  tableRow 0x2de92c6f592b0275 0x4a7484aa6ea6e483 0x5cb0a9dcbd41fbd4 0x76f988da831153b5 ++
  tableRow 0x983e5152ee66dfab 0xa831c66d2db43210 0xb00327c898fb213f 0xbf597fc7beef0ee4 ++
  tableRow 0xc6e00bf33da88fc2 0xd5a79147930aa725 0x06ca6351e003826f 0x142929670a0e6e70

/-- Rows 32 to 44 of rule R173. -/
def k512Part2 : List (BitVec 64) :=
  tableRow 0x27b70a8546d22ffc 0x2e1b21385c26c926 0x4d2c6dfc5ac42aed 0x53380d139d95b3df ++
  tableRow 0x650a73548baf63de 0x766a0abb3c77b2a8 0x81c2c92e47edaee6 0x92722c851482353b ++
  tableRow 0xa2bfe8a14cf10364 0xa81a664bbc423001 0xc24b8b70d0f89791 0xc76c51a30654be30 ++
  tableRow 0xd192e819d6ef5218 0xd69906245565a910 0xf40e35855771202a 0x106aa07032bbd1b8

/-- Rows 48 to 60 of rule R173. -/
def k512Part3 : List (BitVec 64) :=
  tableRow 0x19a4c116b8d2d0c8 0x1e376c085141ab53 0x2748774cdf8eeb99 0x34b0bcb5e19b48a8 ++
  tableRow 0x391c0cb3c5c95a63 0x4ed8aa4ae3418acb 0x5b9cca4f7763e373 0x682e6ff3d6b2b8a3 ++
  tableRow 0x748f82ee5defb2fc 0x78a5636f43172f60 0x84c87814a1f0ab72 0x8cc702081a6439ec ++
  tableRow 0x90befffa23631e28 0xa4506cebde82bde9 0xbef9a3f7b2c67915 0xc67178f2e372532b

/-- Rows 64 to 76 of rule R173. -/
def k512Part4 : List (BitVec 64) :=
  tableRow 0xca273eceea26619c 0xd186b8c721c0c207 0xeada7dd6cde0eb1e 0xf57d4f7fee6ed178 ++
  tableRow 0x06f067aa72176fba 0x0a637dc5a2c898a6 0x113f9804bef90dae 0x1b710b35131c471b ++
  tableRow 0x28db77f523047d84 0x32caab7b40c72493 0x3c9ebe0a15c9bebc 0x431d67c49c100d4c ++
  tableRow 0x4cc5d4becb3e42b6 0x597f299cfc657e2a 0x5fcb6fab3ad6faec 0x6c44198c4a475817

/-- The round constants `K_0 .. K_79` of rule R173. -/
def k512 : List (BitVec 64) := k512Part0 ++ k512Part1 ++ k512Part2 ++ k512Part3 ++ k512Part4

/-- The round constants of a variant, `K_0` first (rules R170 and R171). -/
def roundConstants : (v : Variant) → List (Word v)
  | .sha256 => k256
  | .sha512 => k512

/-- The rotation and shift amounts of rule R165: `a` for `Σ0`, `b` for `Σ1`, `c` for `σ0`, `d` for `σ1`. -/
structure RotationAmounts where
  a0 : Nat
  a1 : Nat
  a2 : Nat
  b0 : Nat
  b1 : Nat
  b2 : Nat
  c0 : Nat
  c1 : Nat
  c2 : Nat
  d0 : Nat
  d1 : Nat
  d2 : Nat
deriving DecidableEq, Repr

/-- The table of rule R166. -/
def rotationAmounts : Variant → RotationAmounts
  | .sha256 => { a0 := 2, a1 := 13, a2 := 22, b0 := 6, b1 := 11, b2 := 25,
                 c0 := 7, c1 := 18, c2 := 3, d0 := 17, d1 := 19, d2 := 10 }
  | .sha512 => { a0 := 28, a1 := 34, a2 := 39, b0 := 14, b1 := 18, b2 := 41,
                 c0 := 1, c1 := 8, c2 := 7, d0 := 19, d1 := 61, d2 := 6 }

end Sys2Proof.Machine
end

