-- ==== Sys2Proof/Machine/Port.lean ====
section
/-! DEFINITION. The transaction-level interface between the host and one SHA2-CORE instance: what the host presents
(30_encoding.md rules R100 to R103, 70_reset_and_hazards.md rules R400 to R402 and R410) and what it gets back
(30_encoding.md rules R109 and R110). -/

namespace Sys2Proof.Machine

/-- One transaction `(CW, P)` of rule R100: a 32-bit command word and a payload. -/
structure Transaction where
  cw      : BitVec 32
  payload : List Byte
deriving DecidableEq, Repr

/-- One response `(RW, Dout)` of rule R100: a 32-bit response word and a sequence of data bytes. -/
structure Response where
  rw   : BitVec 32
  dout : List Byte
deriving DecidableEq, Repr

/-- The three outcomes a response reports (rule R110). -/
inductive Status where
  | ok           -- the command was performed
  | eIllegal     -- an illegal command word, rule R301
  | eFinalized   -- UPDATE or FINALIZE after a successful FINALIZE, rule R302
deriving DecidableEq, Repr

/-- When the host acts: between two commands, or while the instance still works on one. Rule R410 lets it present a
command only between them, rule R402 the same of a hardware reset. -/
inductive Moment where
  | idle
  | busy
deriving DecidableEq, Repr

/-- What the outside world does to one instance: it presents a transaction (rule R100), gives the hardware reset (rule
R400), or takes the power away and restores it (rules R316 and R401). The form of these events is the model's own: DESIGN
CHOICE (log entries 4 and 8). So is that `powerCycle` has no moment: the spec does not say what a power loss in the middle of
a command does, and in the model power is lost only between whole commands (log entry 8). -/
inductive HostEvent where
  | command (moment : Moment) (t : Transaction)
  | hardReset (moment : Moment)
  | powerCycle
deriving DecidableEq, Repr

end Sys2Proof.Machine
end

