-- ==== Sys2Proof/Syntax.lean ====
section
/-! DEFINITION. The four commands of SHA2-CORE (30_encoding.md rule R104), one constructor for each row of the opcode
table. A command word that names none of them is no instruction: the decoder refuses it by name and the machine
answers it with `E_ILLEGAL` (rule R301). -/

namespace Sys2Proof

/-- A command with its operands. UPDATE is the only one that has any: its payload `P`, whose byte count is the
field `N` of its command word (rules R102, R103 and R131). -/
inductive Instr where
  | reset                          -- RESET, rule R260
  | update (payload : List Byte)   -- UPDATE, rule R131
  | finalize                       -- FINALIZE, rule R221
  | qsize                          -- QSIZE, rule R262
deriving DecidableEq, Repr

end Sys2Proof
end

