-- ==== Sys2Proof/Machine/State.lean ====
section
/-! DEFINITION. The state of one SHA2-CORE instance (10_state.md rule R30), what stands on its interface, and its value
right after reset (rule R47). -/

namespace Sys2Proof.Machine

/-- The byte storage `BUF` as a list of (index, byte) cells, indices strictly rising. An index that is not listed holds a
stale byte, whose value rule R38 leaves unspecified: it reads as no value. DESIGN CHOICE (log entry 2). `Memory.wf` in
Machine/Ops.lean is the canonical form. -/
abbrev Memory := List Host.Cell

/-- The one-bit register `PHASE` (rule R44): `ABSORBING` is 0 and `FINALIZED` is 1. -/
inductive Phase where
  | absorbing
  | finalized
deriving DecidableEq, Repr

/-- The architectural state, exactly the tuple of rule R30. -/
structure Engine (v : Variant) where
  /-- `H[0..7]`, the running hash, `W` bits each (rule R31). -/
  H      : Vector (Word v) 8
  /-- `BUF[0..B−1]`, the block buffer (rule R36). -/
  buf    : Memory
  /-- `FILLED`, the count of valid buffer bytes, `FW` bits (rule R40). -/
  filled : BitVec v.FW
  /-- `LENGTH`, the count of bytes absorbed since the last reset modulo `2^L` (rule R42). -/
  length : BitVec v.L
  /-- `PHASE`, the only status flag (rule R44). -/
  phase  : Phase
deriving DecidableEq, Repr

/-- The initial state `S0` (rule R47). Every `BUF` byte is stale. -/
def Engine.s0 (v : Variant) : Engine v :=
  { H := iv v, buf := [], filled := 0, length := 0, phase := .absorbing }

/-- One instance and its interface. `engine` is the spec's architectural state. The other fields are the model's own: the
variant the instance was built as, which no step changes (rules R3 and R46; log entry 1), and the interface of rules R100,
R320 and R321. DESIGN CHOICE (log entry 7). -/
structure State where
  /-- The build-time constant `VARIANT` of this instance (rule R3). -/
  variant : Variant
  /-- The architectural state (rule R30). -/
  engine  : Engine variant
  /-- Whether a hardware reset has been given since the last power-up (rule R401). -/
  ready   : Bool
  /-- What the host and the outside world still have to do to this instance, first in the list first in time (rule R82). -/
  inbox   : List HostEvent
  /-- The responses given so far, oldest first: the observation of a run (rule R321). -/
  outbox  : List Response
  /-- How many times power-up has drawn free values: a counter of the model, not of the spec (log entry 8). -/
  draws   : Nat
deriving DecidableEq, Repr

/-- The machine has no fault. An error of SHA2-CORE is the response to the command that caused it (rule R300), which is a next
state, and an accepted command raises nothing more (rule R305). DEDUCED (log entry 9). -/
inductive Fault where
deriving DecidableEq, Repr

/-- Why the model gives no next state. Each but the first names a case the spec tells a model to refuse (log entry 10). -/
inductive Refusal where
  /-- Raised by an arm of `exec` whose instruction has no meaning yet. No arm of this model raises it. Safe. -/
  | notModelled (mnemonic : String)
  /-- Raised by a transaction whose payload does not have the `N` bytes its command word says (rule R103: "a model refuses
  such a transaction at its boundary"). Safe. -/
  | malformedPayload
  /-- Raised by a command presented before the response to the previous one (rule R410: "A model does not admit an
  overlapping command"). Safe. -/
  | overlappingCommand
  /-- Raised by a command before the first hardware reset after power-up (rule R401: "A model does not admit a command before
  the first reset"). Safe. -/
  | commandBeforeReset
  /-- Raised by a hardware reset while a command is in progress (rule R402: "A model does not admit a hardware reset in the
  middle of a command"). Safe. -/
  | resetDuringCommand
deriving DecidableEq, Repr

/-- An instance of either variant right after its hardware reset, with nothing on its interface (rules R47 and R400). -/
def State.resetOf (v : Variant) : State :=
  { variant := v, engine := Engine.s0 v, ready := true, inbox := [], outbox := [], draws := 0 }

/-- The machine right after reset, for the variant that `Config.variant` names. DESIGN CHOICE (log entry 1). -/
def State.reset : State := State.resetOf Config.variant

end Sys2Proof.Machine
end

