-- ==== Sys2Proof/Machine/Flags.lean ====
section
/-! DEFINITION. The one status flag, `PHASE` (10_state.md rules R44 and R45), and the status codes of a response
(30_encoding.md rule R110). SHA2-CORE has no arithmetic flags (rules R51 and R160). -/

namespace Sys2Proof.Machine

/-- `PHASE` as the bit of rule R44. -/
def Phase.bit : Phase → BitVec 1
  | .absorbing => 0
  | .finalized => 1

/-- The codes of rule R110. -/
def Status.code : Status → BitVec 4
  | .ok => 0x0
  | .eIllegal => 0x1
  | .eFinalized => 0x2

/-- A successful FINALIZE sets `PHASE` to `FINALIZED` (rules R45 and R227). -/
def Engine.setFinalized {v : Variant} (e : Engine v) : Engine v := { e with phase := .finalized }

end Sys2Proof.Machine
end

