-- ==== Sys2Proof/WellFormed.lean ====
section
/-! DEFINITION. The checks on a command as written and on a transaction as presented. -/

namespace Sys2Proof

/-- A command is well formed when its operands fit its encoding: the payload of one UPDATE has at most `2^24 − 1` bytes
(30_encoding.md rule R102). -/
def Instr.wf : Instr → Bool
  | .reset => true
  | .update payload => decide (payload.length < 2 ^ 24)
  | .finalize => true
  | .qsize => true

/-- The host's duty of rule R103: the payload carries exactly as many bytes as the field `N = CW[31:8]` says, whatever the
operation. -/
def Machine.Transaction.wf (t : Machine.Transaction) : Bool :=
  decide (t.payload.length = (t.cw.extractLsb' 8 24).toNat)

end Sys2Proof
end

