-- ==== Sys2Proof/Decode.lean ====
section
/-! DEFINITION. The decoder of 30_encoding.md rule R111, total over all `2^32` command words and rejecting by name, the
encoder written from the same table, and the table of matches and masks itself. -/

namespace Sys2Proof

open Sys2Proof.Machine (Transaction)

/-- `OP = CW[3:0]` (rule R101). -/
def opField (cw : BitVec 32) : BitVec 4 := cw.extractLsb' 0 4

/-- `RSV = CW[7:4]` (rule R101). -/
def rsvField (cw : BitVec 32) : BitVec 4 := cw.extractLsb' 4 4

/-- `N = CW[31:8]`, an unsigned byte count that is not extended, scaled or shifted (rules R101 and R102). -/
def nField (cw : BitVec 32) : BitVec 24 := cw.extractLsb' 8 24

/-- Why a command word is illegal (rule R301 lists the three cases). The response does not tell them apart. -/
inductive DecodeError where
  | reservedField      -- `RSV ≠ 0`, rule R106
  | reservedOp         -- `OP` is `0x0` or `0x5` to `0xF`, rule R105
  | operandCount       -- RESET, FINALIZE or QSIZE with `N ≠ 0`, rule R107
deriving DecidableEq, Repr

/-- An operation that takes no operand is legal only with `N = 0` (rule R107). -/
def decodeNoOperand (cw : BitVec 32) (i : Instr) : Except DecodeError Instr :=
  if nField cw = 0 then .ok i else .error .operandCount

/-- `decode(CW)` of rule R111, with the payload of the transaction as the operand of UPDATE. -/
def decode (t : Transaction) : Except DecodeError Instr :=
  if rsvField t.cw ≠ 0 then .error .reservedField
  else if opField t.cw = 0x1 then decodeNoOperand t.cw .reset
  else if opField t.cw = 0x2 then .ok (.update t.payload)
  else if opField t.cw = 0x3 then decodeNoOperand t.cw .finalize
  else if opField t.cw = 0x4 then decodeNoOperand t.cw .qsize
  else .error .reservedOp

/-- A command word from its fields `N` and `OP`, with `RSV = 0` (rule R101). -/
def commandWord (n : BitVec 24) (op : BitVec 4) : BitVec 32 := n ++ (0 : BitVec 4) ++ op

/-- The transaction that carries a command (rules R101 to R104). -/
def encode : Instr → Transaction
  | .reset => { cw := commandWord 0 0x1, payload := [] }
  | .update payload => { cw := commandWord (BitVec.ofNat 24 payload.length) 0x2, payload := payload }
  | .finalize => { cw := commandWord 0 0x3, payload := [] }
  | .qsize => { cw := commandWord 0 0x4, payload := [] }

/-- One row of the table of matches and masks of rule R111. -/
structure OpcodeRow where
  mnemonic : String
  pattern  : BitVec 32
  mask     : BitVec 32
deriving DecidableEq, Repr

/-- The table of rule R111. -/
def opcodeTable : List OpcodeRow :=
  [{ mnemonic := "RESET", pattern := 0x00000001, mask := 0xFFFFFFFF },
   { mnemonic := "UPDATE", pattern := 0x00000002, mask := 0x000000FF },
   { mnemonic := "FINALIZE", pattern := 0x00000003, mask := 0xFFFFFFFF },
   { mnemonic := "QSIZE", pattern := 0x00000004, mask := 0xFFFFFFFF }]

/-- A command word matches a row when it has the row's bits under the row's mask (rule R111). -/
def OpcodeRow.covers (r : OpcodeRow) (cw : BitVec 32) : Bool := cw &&& r.mask == r.pattern

/-- The mnemonic of a command, as the opcode table spells it. -/
def Instr.mnemonic : Instr → String
  | .reset => "RESET"
  | .update _ => "UPDATE"
  | .finalize => "FINALIZE"
  | .qsize => "QSIZE"

/-- The transaction whose bits are `w`: the command word is bits 31 to 0, and payload byte `j` follows at bits
`39 + 8j` to `32 + 8j` (rule R113: a transaction is `4 + N` bytes long). Only the low `nbits` bits of `w` count; those
above are 0. -/
def tableTransaction (nbits w : Nat) : Transaction :=
  let bits := w % 2 ^ nbits
  let cw := BitVec.ofNat 32 bits
  { cw := cw
    payload := (List.range (nField cw).toNat).map fun j => BitVec.ofNat 8 (bits >>> (32 + 8 * j)) }

/-- The instruction the decoder reads from the bits `w` of an opcode-table row of `nbits` bits. -/
def decodeTableWord (nbits w : Nat) : Option Instr :=
  match decode (tableTransaction nbits w) with
  | .ok i => some i
  | .error _ => none

end Sys2Proof
end

