-- ==== Sys2Proof/Machine/Operands.lean ====
section
/-! DEFINITION. Operands and conversions between bytes and wider values. Every conversion is big-endian (20_memory.md
rule R74), and the byte order is fixed (rule R75). -/

namespace Sys2Proof.Machine

/-- `be_n(s)` of rule R15, as a number: `Σ_{i<n} s[i] · 2^(8(n−1−i))`. -/
def beNat (s : List Byte) : Nat := s.foldl (fun acc b => acc * 256 + b.toNat) 0

/-- `be_NB(s)` as a word of the variant (rules R15 and R77). -/
def beWord (v : Variant) (s : List Byte) : Word v := BitVec.ofNat v.W (beNat s)

/-- `bytes_be_n(x)` of rule R15: the `n` bytes of `x mod 2^(8n)`, most significant byte first. -/
def bytesBe (n x : Nat) : List Byte :=
  (List.range n).map fun i => BitVec.ofNat 8 (x >>> (8 * (n - 1 - i)))

/-- The block parse of rule R175: `M_t = be_NB(blk[NB·t .. NB·t + NB))` for `t = 0 .. 15`. -/
def parseBlock (v : Variant) (blk : List Byte) : List (Word v) :=
  (List.range 16).map fun t => beWord v ((blk.drop (v.NB * t)).take v.NB)

/-- The serialization of rule R226: the eight words of `H`, `H[0]` first, each as `NB` big-endian bytes. -/
def serialize {v : Variant} (H : Vector (Word v) 8) : List Byte :=
  H.toList.flatMap fun w => bytesBe v.NB w.toNat

/-- The latched bit length of rule R222: `LENGTH << 3`, truncated to `L` bits. -/
def bitLength {v : Variant} (length : BitVec v.L) : BitVec v.L := length <<< 3

/-- The zero count of rule R224, `Z = (B − Lf − FILLED) mod B`, with `FILLED` as the `0x80` byte left it. -/
def zeroCount (v : Variant) (filled : Nat) : Nat := (((v.B : Int) - v.Lf - filled) % v.B).toNat

end Sys2Proof.Machine
end

