-- ==== Sys2Proof/Machine/Ops.lean ====
section
/-! DEFINITION. The operations the commands share: reading and writing `BUF` (00_scope.md rule R16), emitting a response
(30_encoding.md rule R109), rejecting a command (60_exceptions.md rule R300), and setting an engine to `S0`
(10_state.md rule R47). -/

namespace Sys2Proof.Machine

/-- The canonical form of `BUF`: indices strictly rising, each inside the array of `n` bytes. -/
def Memory.wf (n : Nat) (m : Memory) : Bool :=
  decide (m.Pairwise fun x y => x.1 < y.1) && m.all fun c => decide (c.1 < n)

/-- The byte at an index, or no value where the byte is stale (rule R38). -/
def Memory.read : Memory → Nat → Option Byte
  | [], _ => none
  | (k, x) :: m, a => if a = k then some x else Memory.read m a

/-- Writes one byte, `BUF[a] <- b` (rule R16), keeping the indices rising. -/
def Memory.write : Memory → Nat → Byte → Memory
  | [], a, b => [(a, b)]
  | (k, x) :: m, a, b =>
    if a < k then (a, b) :: (k, x) :: m
    else if a = k then (a, b) :: m
    else (k, x) :: Memory.write m a b

/-- `MemWrite(j, |s|, s)` of rule R16: `BUF[j+i] <- s[i]` for each byte of `s`. -/
def memWrite (m : Memory) : Nat → List Byte → Memory
  | _, [] => m
  | j, b :: s => memWrite (m.write j b) (j + 1) s

/-- The byte a read of `BUF[a]` gives: the byte held there, or for a stale byte a free value (rule R38). DESIGN CHOICE (log
entry 3). -/
def readByte (m : Memory) (a : Nat) : Byte := (m.read a).getD (Config.staleByte a)

/-- `MemRead(j, n)` of rule R16: the bytes `[BUF[j], ..., BUF[j+n−1]]`. -/
def memRead (m : Memory) (j n : Nat) : List Byte := (List.range n).map fun i => readByte m (j + i)

/-- The whole of `BUF` becomes stale (rule R132, after `COMPRESS`; rule R260, at RESET): no index holds a value. -/
def Memory.stale : Memory := []

/-- The response word of rule R109: `VALUE` in bits 31 to 8, zero in bits 7 to 4, `STATUS` in bits 3 to 0. -/
def responseWord (st : Status) (value : BitVec 24) : BitVec 32 :=
  (value.zeroExtend 32 <<< 8) ||| st.code.zeroExtend 32

/-- `respond(status, value, data)` of rules R16 and R109. -/
def State.respond (s : State) (st : Status) (value : BitVec 24) (data : List Byte) : State :=
  { s with outbox := s.outbox ++ [{ rw := responseWord st value, dout := data }] }

/-- `raise E_<name>` of rules R16 and R300: the error response, with `VALUE = 0` and no data, is its only effect. Nothing is
saved and control goes nowhere (rule R308), so there is no return from it (rule R309). -/
def State.reject (s : State) (st : Status) : State := s.respond st 0 []

/-- Puts an engine state into an instance. -/
def State.setEngine (s : State) (e : Engine s.variant) : State := { s with engine := e }

/-- Sets an engine to `S0` (rules R47 and R260). `BUF` is not written: every byte of it is stale. -/
def Engine.toS0 {v : Variant} (e : Engine v) : Engine v :=
  { e with H := iv v, buf := Memory.stale, filled := 0, length := 0, phase := .absorbing }

/-- The unspecified state of an instance between power-up and its first hardware reset (rule R401), drawn from the free
values of the `n`-th power-up. The spec leaves open whether the power-up states of two instances agree. Here they do: two
instances of one variant at one `n` come up with equal `H`, `FILLED`, `LENGTH` and `PHASE`, because the free values depend on
`n` and the piece alone. DESIGN CHOICE (log entry 8). -/
def Engine.poweredUp (v : Variant) (n : Nat) : Engine v :=
  { H := Vector.ofFn fun i => BitVec.ofNat v.W (Config.powerUpBits n i)
    buf := Memory.stale
    filled := BitVec.ofNat v.FW (Config.powerUpBits n 8)
    length := BitVec.ofNat v.L (Config.powerUpBits n 9)
    phase := if Config.powerUpBits n 10 % 2 = 0 then .absorbing else .finalized }

end Sys2Proof.Machine
end

