-- ==== Sys2Proof/Machine/Control.lean ====
section
/-! DEFINITION. The commands RESET and QSIZE (43_control.md), and the hardware reset and power-up
(70_reset_and_hazards.md). -/

namespace Sys2Proof.Machine

/-- RESET (rule R260), accepted in either phase. -/
def execReset (s : State) : Host.Outcome State Fault Refusal :=
  .next ((s.setEngine s.engine.toS0).respond .ok 0 [])

/-- QSIZE (rule R262): answers `VALUE = D` in every state, and reads and writes none. -/
def execQsize (s : State) : Host.Outcome State Fault Refusal :=
  .next (s.respond .ok (BitVec.ofNat 24 s.variant.D) [])

/-- The hardware reset (rule R400): the same effect as RESET, with no response. Commands are admitted from then on (rule
R401). -/
def hardReset (s : State) : State := { s.setEngine s.engine.toS0 with ready := true }

/-- Power was lost and is back (rules R316 and R401): the state is unspecified until the next hardware reset. -/
def powerUp (s : State) : State :=
  { s.setEngine (Engine.poweredUp s.variant s.draws) with ready := false, draws := s.draws + 1 }

end Sys2Proof.Machine
end

