-- ==== Sys2Proof/Machine/Compress.lean ====
section
/-! DEFINITION. The Compression Round `COMPRESS(H, blk)` of 41_compression.md. It is no command (rule R183): only
`ABSORB` calls it. It is a pure, total function of its two arguments (rules R174 and R182). -/

namespace Sys2Proof.Machine

variable {v : Variant}

/-- `ROTR^n(x)` by the formula of rule R161. -/
def rotr (n : Nat) (x : Word v) : Word v := (x >>> n) ||| (x <<< (v.W - n))

/-- `SHR^n(x)` (rule R162). -/
def shr (n : Nat) (x : Word v) : Word v := x >>> n

/-- `Ch(x, y, z)` (rule R163). -/
def ch (x y z : Word v) : Word v := (x &&& y) ^^^ (~~~x &&& z)

/-- `Maj(x, y, z)` (rule R164). -/
def maj (x y z : Word v) : Word v := (x &&& y) ^^^ (x &&& z) ^^^ (y &&& z)

/-- `Σ0(x)` (rule R165). -/
def bigSigma0 (x : Word v) : Word v :=
  rotr (rotationAmounts v).a0 x ^^^ rotr (rotationAmounts v).a1 x ^^^ rotr (rotationAmounts v).a2 x

/-- `Σ1(x)` (rule R165). -/
def bigSigma1 (x : Word v) : Word v :=
  rotr (rotationAmounts v).b0 x ^^^ rotr (rotationAmounts v).b1 x ^^^ rotr (rotationAmounts v).b2 x

/-- `σ0(x)` (rule R165). -/
def smallSigma0 (x : Word v) : Word v :=
  rotr (rotationAmounts v).c0 x ^^^ rotr (rotationAmounts v).c1 x ^^^ shr (rotationAmounts v).c2 x

/-- `σ1(x)` (rule R165). -/
def smallSigma1 (x : Word v) : Word v :=
  rotr (rotationAmounts v).d0 x ^^^ rotr (rotationAmounts v).d1 x ^^^ shr (rotationAmounts v).d2 x

/-- The next schedule word, `W_t` for `t` the number of words so far (rule R176, second line). -/
def nextScheduleWord (ws : List (Word v)) : Word v :=
  let t := ws.length
  ws.getD (t - 16) 0 + smallSigma0 (ws.getD (t - 15) 0) + ws.getD (t - 7) 0 + smallSigma1 (ws.getD (t - 2) 0)

/-- Extends a schedule by `n` words. -/
def extendSchedule : Nat → List (Word v) → List (Word v)
  | 0, ws => ws
  | n + 1, ws => extendSchedule n (ws ++ [nextScheduleWord ws])

/-- The message schedule `W_0 .. W_{R−1}` of a block (rules R175 and R176). -/
def schedule (v : Variant) (blk : List Byte) : List (Word v) := extendSchedule (v.R - 16) (parseBlock v blk)

/-- The eight working variables of rule R177. They exist only inside one `COMPRESS` (rule R49). -/
structure WorkingVars (v : Variant) where
  a : Word v
  b : Word v
  c : Word v
  d : Word v
  e : Word v
  f : Word v
  g : Word v
  h : Word v
deriving DecidableEq, Repr

/-- The working variables seeded from the state, in order (rule R177). -/
def seedVars (H : Vector (Word v) 8) : WorkingVars v :=
  { a := H[0], b := H[1], c := H[2], d := H[3], e := H[4], f := H[5], g := H[6], h := H[7] }

/-- `T1` of round `t`, from `K_t` and `W_t` (rule R178). -/
def temp1 (x : WorkingVars v) (kt wt : Word v) : Word v := x.h + bigSigma1 x.e + ch x.e x.f x.g + kt + wt

/-- `T2` of a round (rule R178). -/
def temp2 (x : WorkingVars v) : Word v := bigSigma0 x.a + maj x.a x.b x.c

/-- Round `t`, with `(K_t, W_t)`: all eight variables at once, each from the old ones (rule R178). -/
def roundStep (x : WorkingVars v) (kw : Word v × Word v) : WorkingVars v :=
  let t1 := temp1 x kw.1 kw.2
  let t2 := temp2 x
  { a := t1 + t2, b := x.a, c := x.b, d := x.c, e := x.d + t1, f := x.e, g := x.f, h := x.g }

/-- The rounds `t = 0, 1, ..., R−1`, in that order (rule R179). -/
def rounds (ws : List (Word v)) (x : WorkingVars v) : WorkingVars v :=
  ((roundConstants v).zip ws).foldl roundStep x

/-- The state update of rule R180: each final working variable added into its state word. -/
def addVars (H : Vector (Word v) 8) (x : WorkingVars v) : Vector (Word v) 8 :=
  #v[H[0] + x.a, H[1] + x.b, H[2] + x.c, H[3] + x.d, H[4] + x.e, H[5] + x.f, H[6] + x.g, H[7] + x.h]

/-- `COMPRESS(H, blk)` in full (rule R181). -/
def compress (H : Vector (Word v) 8) (blk : List Byte) : Vector (Word v) 8 :=
  addVars H (rounds (schedule v blk) (seedVars H))

end Sys2Proof.Machine
end

