-- ==== Sys2Proof/Machine/Update.lean ====
section
/-! DEFINITION. The buffering state machine and the command UPDATE (40_update.md). -/

namespace Sys2Proof.Machine

variable {v : Variant}

/-- The local values of the loop of `ABSORB` (rule R132): the state words, the buffer, the local fill count `f`, which may
be `B` inside a pass, and the blocks given to `COMPRESS` so far, first call first. The last is no state of the machine:
it counts the calls that rules R134 and R420 count. -/
structure AbsorbLoop (v : Variant) where
  H      : Vector (Word v) 8
  buf    : Memory
  f      : Nat
  blocks : List (List Byte)
deriving DecidableEq, Repr

/-- `MemWrite(f, k, s[i .. i+k))` and `f <- f + k` (rule R132). -/
def AbsorbLoop.copy (l : AbsorbLoop v) (bytes : List Byte) : AbsorbLoop v :=
  { l with buf := memWrite l.buf l.f bytes, f := l.f + bytes.length }

/-- `if f == B`: `COMPRESS` on the whole buffer, which is then stale, and `f <- 0` (rule R132). -/
def AbsorbLoop.drain (l : AbsorbLoop v) : AbsorbLoop v :=
  if l.f = v.B then
    let blk := memRead l.buf 0 v.B
    { H := compress l.H blk, buf := Memory.stale, f := 0, blocks := l.blocks ++ [blk] }
  else l

/-- One pass of the loop over the bytes `s[i ..]` still to absorb: `k <- min(B − f, n − i)` of them are copied, and a full
buffer is compressed (rule R132). -/
def AbsorbLoop.pass (l : AbsorbLoop v) (rest : List Byte) : AbsorbLoop v :=
  (l.copy (rest.take (min (v.B - l.f) rest.length))).drain

/-- `while i < n` (rule R132), `rest` being `s[i ..]`. Each pass uses up at least one byte while `f < B`, so the number of
bytes bounds the number of passes. -/
def AbsorbLoop.run : Nat → AbsorbLoop v → List Byte → AbsorbLoop v
  | 0, l, _ => l
  | n + 1, l, rest =>
    if rest.isEmpty then l
    else AbsorbLoop.run n (l.pass rest) (rest.drop (min (v.B - l.f) rest.length))

/-- The loop as `ABSORB` starts it: `f <- FILLED`, and no call of `COMPRESS` yet (rule R132). -/
def Engine.startAbsorb (e : Engine v) : AbsorbLoop v :=
  { H := e.H, buf := e.buf, f := e.filled.toNat, blocks := [] }

/-- The loop of `ABSORB(s)` from an engine state, run to its end. -/
def absorbLoop (e : Engine v) (s : List Byte) : AbsorbLoop v := AbsorbLoop.run s.length e.startAbsorb s

/-- `ABSORB(s)` (rule R132), the single path into `BUF` and `COMPRESS` (rule R130). `LENGTH` wraps modulo `2^L` (rule R133). -/
def absorb (e : Engine v) (s : List Byte) : Engine v :=
  let l := absorbLoop e s
  { e with
    H := l.H
    buf := l.buf
    filled := BitVec.ofNat v.FW l.f
    length := e.length + BitVec.ofNat v.L s.length }

/-- The blocks `ABSORB(s)` gives to `COMPRESS`, first call first (rule R134). -/
def absorbBlocks (e : Engine v) (s : List Byte) : List (List Byte) := (absorbLoop e s).blocks

/-- UPDATE (rule R131). The phase is checked before any byte is absorbed. -/
def execUpdate (payload : List Byte) (s : State) : Host.Outcome State Fault Refusal :=
  match s.engine.phase with
  | .finalized => .next (s.reject .eFinalized)
  | .absorbing => .next ((s.setEngine (absorb s.engine payload)).respond .ok 0 [])

end Sys2Proof.Machine
end

