-- ==== Sys2Proof/Machine/Finalize.lean ====
section
/-! DEFINITION. Padding, serialization and the command FINALIZE (42_finalize.md). -/

namespace Sys2Proof.Machine

variable {v : Variant}

/-- The three padding steps of rules R223 to R225, through the ordinary absorption path. `BL` is latched from `LENGTH` at
entry, before any padding byte is counted (rule R222). -/
def padEngine (e : Engine v) : Engine v :=
  let bl := bitLength e.length
  let e1 := absorb e [0x80]
  let e2 := absorb e1 (zeros (zeroCount v e1.filled.toNat))
  absorb e2 (bytesBe v.Lf bl.toNat)

/-- The blocks the three padding steps give to `COMPRESS`, first call first (rules R228 and R420). -/
def padBlocks (e : Engine v) : List (List Byte) :=
  let e1 := absorb e [0x80]
  let zs := zeros (zeroCount v e1.filled.toNat)
  let e2 := absorb e1 zs
  absorbBlocks e [0x80] ++ absorbBlocks e1 zs ++ absorbBlocks e2 (bytesBe v.Lf (bitLength e.length).toNat)

/-- FINALIZE (rule R221). The digest is given once, in the response (rules R227 and R231). -/
def execFinalize (s : State) : Host.Outcome State Fault Refusal :=
  match s.engine.phase with
  | .finalized => .next (s.reject .eFinalized)
  | .absorbing =>
    let e := padEngine s.engine
    .next ((s.setEngine e.setFinalized).respond .ok 0 (serialize e.H))

end Sys2Proof.Machine
end

