-- ==== Sys2Proof/Machine/Dispatch.lean ====
section
/-! DEFINITION. One arm for each command. -/

namespace Sys2Proof.Machine

def exec (i : Instr) (s : State) : Host.Outcome State Fault Refusal :=
  match i with
  | .reset => Sys2Proof.Machine.execReset s
  | .update payload => Sys2Proof.Machine.execUpdate payload s
  | .finalize => Sys2Proof.Machine.execFinalize s
  | .qsize => Sys2Proof.Machine.execQsize s

end Sys2Proof.Machine
end

