-- ==== Sys2Proof/Machine/Transact.lean ====
section
/-! DEFINITION. What one event on the interface does: the boundary checks of a transaction, the order of the checks of a
command (60_exceptions.md rule R303), and the events that are no command. -/

namespace Sys2Proof.Machine

/-- An illegal command word (rule R301): `E_ILLEGAL`, no state change, and the payload is taken and discarded (rule
R108). -/
def execIllegal (s : State) : Host.Outcome State Fault Refusal := .next (s.reject .eIllegal)

/-- One transaction taken by an instance that is between commands. Before the first hardware reset it is not admitted (rule
R401), and with a payload of another length than `N` it is malformed (rule R103; the order of these two is log entry 10). Then the command word is decoded
before the phase is looked at (rule R303). -/
def transact (t : Transaction) (s : State) : Host.Outcome State Fault Refusal :=
  if s.ready = false then .refused .commandBeforeReset
  else if t.wf = false then .refused .malformedPayload
  else
    match decode t with
    | .ok i => exec i s
    | .error _ => execIllegal s

/-- One event. A command or a hardware reset while a command is in progress is not admitted (rules R402 and R410). -/
def handle (ev : HostEvent) (s : State) : Host.Outcome State Fault Refusal :=
  match ev with
  | .command .idle t => transact t s
  | .command .busy _ => .refused .overlappingCommand
  | .hardReset .idle => .next (hardReset s)
  | .hardReset .busy => .refused .resetDuringCommand
  | .powerCycle => .next (powerUp s)

/-- What a state looks like with its first event taken off the interface. -/
def State.take (s : State) (rest : List HostEvent) : State := { s with inbox := rest }

/-- Puts a transaction at the front of what the host presents. -/
def State.present (s : State) (t : Transaction) : State := { s with inbox := .command .idle t :: s.inbox }

end Sys2Proof.Machine
end

