-- ==== Sys2Proof/Machine/Step.lean ====
section
/-! DEFINITION. One step of the machine: one whole event of the interface (20_memory.md rules R78 and R82), or nothing
where none is there. -/

namespace Sys2Proof.Machine

/-- Takes the next event and runs it to completion (rule R17). With no event the instance is idle and keeps its state: only
commands and resets write it (rules R32, R39, R41, R43 and R45). DEDUCED (log entry 5). -/
def step (s : State) : Host.Outcome State Fault Refusal :=
  match s.inbox with
  | [] => .next s
  | ev :: rest => handle ev (s.take rest)

/-- The state with the instruction whose bits are `w` presented as the next transaction, its payload bytes taken from the
bits above the command word. DESIGN CHOICE (log entry 6). -/
def State.withFetchWord (s : State) (nbits w : Nat) : State := s.present (tableTransaction nbits w)

end Sys2Proof.Machine
end

