-- ==== Sys2Proof/Machine/Assembler.lean ====
section
/-! DEFINITION. The line syntax in which the spec writes command sequences (30_encoding.md rule R114) and the two
pseudo-commands (rule R115). A line stands here as a term, not as text. -/

namespace Sys2Proof.Machine

/-- The three ways a line gives the payload of an UPDATE (rule R114). -/
inductive AsmPayload where
  | text (s : String)               -- `UPDATE "text"`: the ASCII bytes of the text
  | hex (bytes : List Byte)         -- `UPDATE hex:6162 63`: the listed bytes
  | fill (b : Byte) (n : Nat)       -- `UPDATE fill(b, n)`: `n` bytes of value `b`
deriving DecidableEq, Repr

/-- The payload bytes of an UPDATE line (rule R114). A character that is not ASCII has no rule: it gives its code modulo 256.
DESIGN CHOICE (log entry 13). -/
def AsmPayload.bytes : AsmPayload → List Byte
  | .text s => s.toList.map fun c => BitVec.ofNat 8 c.toNat
  | .hex bytes => bytes
  | .fill b n => List.replicate n b

/-- One line of a command sequence (rule R114). -/
inductive AsmLine where
  | reset
  | update (p : AsmPayload)
  | finalize
  | qsize
  | word (cw : BitVec 32)           -- `.word`: a raw command word with an empty payload
deriving DecidableEq, Repr

/-- The transaction a line stands for (rule R114). -/
def AsmLine.transaction : AsmLine → Transaction
  | .reset => encode .reset
  | .update p => encode (.update p.bytes)
  | .finalize => encode .finalize
  | .qsize => encode .qsize
  | .word cw => { cw := cw, payload := [] }

/-- The pseudo-commands of rule R115. -/
inductive PseudoCommand where
  | updateLong (s : List Byte)
  | hash (s : List Byte)
deriving DecidableEq, Repr

/-- The piece length `c = 2^24 − 1` of rule R115, the most one UPDATE carries (rule R102). -/
def maxPayload : Nat := 2 ^ 24 - 1

/-- The successive pieces of at most `c` bytes of a byte sequence, the last holding the remainder. -/
def piecesOf (c : Nat) (s : List Byte) : List (List Byte) :=
  (List.range ((s.length + (c - 1)) / c)).map fun j => (s.drop (c * j)).take c

/-- The payloads of the UPDATEs `UPDATE_LONG s` expands to: no piece is empty, but the empty sequence gives one empty piece
(rule R115). -/
def longPayloads (s : List Byte) : List (List Byte) := if s.isEmpty then [[]] else piecesOf maxPayload s

/-- The real commands a pseudo-command expands to (rule R115). -/
def PseudoCommand.expand : PseudoCommand → List Instr
  | .updateLong s => (longPayloads s).map Instr.update
  | .hash s => Instr.reset :: (longPayloads s).map Instr.update ++ [Instr.finalize]

end Sys2Proof.Machine
end

