-- ==== Sys2Proof/Safety.lean ====
section
/-! DEFINITION. The terms in which the claims speak: the invariant of the machine, the message an engine state stands for
(40_update.md rule R138), the closed form of a digest (42_finalize.md rule R232), and the session of a host with one
instance, told by messages and digests alone. -/

namespace Sys2Proof.Machine

variable {v : Variant}

/-- Rules R37, R38 and R229: `BUF` holds a value at exactly the indices `0 .. FILLED−1`, and after a FINALIZE nothing is
buffered. -/
abbrev Engine.Inv (e : Engine v) : Prop :=
  e.buf.map Prod.fst = List.range e.filled.toNat ∧ (e.phase = .finalized → e.filled = 0)

/-- The invariant of the machine. Before the first hardware reset after power-up the engine state is unspecified (rule R401),
so the invariant says nothing of it. -/
abbrev State.Inv (s : State) : Prop := s.ready = true → s.engine.Inv

/-- `BUF[0 .. FILLED)`, the bytes absorbed and not yet compressed (rule R37). -/
def Engine.pending (e : Engine v) : List Byte := memRead e.buf 0 e.filled.toNat

/-- The byte `BUF[a]` of an instance, or no value where it is stale. -/
def State.readBuf (s : State) (a : Nat) : Option Byte := s.engine.buf.read a

/-- The successive whole blocks of `B` bytes of a byte sequence; a remainder is left out. -/
def blocksOf (v : Variant) (s : List Byte) : List (List Byte) :=
  (List.range (s.length / v.B)).map fun j => (s.drop (v.B * j)).take v.B

/-- `COMPRESS*` over a list of blocks (rule R138). -/
def compressStar (H : Vector (Word v) 8) (blks : List (List Byte)) : Vector (Word v) 8 := blks.foldl compress H

/-- The bytes that FINALIZE absorbs after `n` message bytes when the latched bit length is `bl` (rules R223 to R225). The
zero count is that of rule R232. -/
def padding (v : Variant) (n bl : Nat) : List Byte :=
  [0x80] ++ zeros (((v.B : Int) - v.Lf - 1 - n) % v.B).toNat ++ bytesBe v.Lf bl

/-- `pad(m)` of rule R232. -/
def pad (v : Variant) (m : List Byte) : List Byte := m ++ padding v m.length ((8 * m.length) % 2 ^ v.L)

/-- The digest of a message: the serialization of `COMPRESS*(IV, pad(m))` (rule R232). -/
def digest (v : Variant) (m : List Byte) : List Byte := serialize (compressStar (iv v) (blocksOf v (pad v m)))

/-- The engine state stands for the message `m` (rule R138). The field `held` says more than the rule: no byte from `FILLED`
on has a value (log entry 2). -/
structure Absorbed (e : Engine v) (m : List Byte) : Prop where
  phase   : e.phase = .absorbing
  length  : e.length.toNat = m.length % 2 ^ v.L
  filled  : e.filled.toNat = m.length % v.B
  held    : e.buf.map Prod.fst = List.range e.filled.toNat
  pending : e.pending = m.drop (m.length - e.filled.toNat)
  hash    : e.H = compressStar (iv v) (blocksOf v (m.take (m.length - e.filled.toNat)))

/-- What a host knows of its session with one instance: the message sent since the last reset, or that it is finalized. -/
inductive Session where
  | absorbing (m : List Byte)
  | finalized
deriving DecidableEq, Repr

/-- A successful response with no value and no data (rule R109). -/
def okResponse : Response := { rw := responseWord .ok 0, dout := [] }

/-- An error response (rule R300). -/
def errorResponse (st : Status) : Response := { rw := responseWord st 0, dout := [] }

/-- The session after a command, and the response to it, told by messages and digests alone (rules R131, R221, R260, R262 and
R302). -/
def Session.command (v : Variant) (i : Instr) (σ : Session) : Session × Response :=
  match i, σ with
  | .reset, _ => (.absorbing [], okResponse)
  | .update p, .absorbing m => (.absorbing (m ++ p), okResponse)
  | .update _, .finalized => (.finalized, errorResponse .eFinalized)
  | .finalize, .absorbing m => (.finalized, { rw := responseWord .ok 0, dout := digest v m })
  | .finalize, .finalized => (.finalized, errorResponse .eFinalized)
  | .qsize, σ => (σ, { rw := responseWord .ok (BitVec.ofNat 24 v.D), dout := [] })

/-- The session after a transaction: an illegal word changes nothing (rule R301). -/
def Session.transact (v : Variant) (t : Transaction) (σ : Session) : Session × Response :=
  match decode t with
  | .ok i => σ.command v i
  | .error _ => (σ, errorResponse .eIllegal)

/-- The responses of a session over a list of transactions, in order (rule R321). -/
def Session.responses (v : Variant) : Session → List Transaction → List Response
  | _, [] => []
  | σ, t :: ts => (σ.transact v t).2 :: Session.responses v (σ.transact v t).1 ts

/-- An engine state stands for a session. -/
def Represents (e : Engine v) : Session → Prop
  | .absorbing m => Absorbed e m
  | .finalized => e.phase = .finalized ∧ e.filled = 0 ∧ e.buf = []

/-- A transaction is answered with `E_ILLEGAL` (`RW = 0x00000001`, no data) by every ready instance, and changes nothing else
(rules R300 and R301). -/
def AnsweredIllegal (t : Transaction) : Prop :=
  ∀ (s : State) (rest : List HostEvent), s.ready = true → t.wf = true → s.inbox = .command .idle t :: rest →
    step s = .next { s with inbox := rest, outbox := s.outbox ++ [{ rw := 0x00000001, dout := [] }] }

/-- How many times a command calls `COMPRESS` (rule R420). -/
def compressCalls (i : Instr) (s : State) : Nat :=
  match i, s.engine.phase with
  | .update p, .absorbing => (absorbBlocks s.engine p).length
  | .finalize, .absorbing => (padBlocks s.engine).length
  | .update _, .finalized => 0
  | .finalize, .finalized => 0
  | .reset, _ => 0
  | .qsize, _ => 0

/-- A state with a list of transactions presented one after another, each after the response to the one before it (rule
R410). -/
def State.presentAll (s : State) (ts : List Transaction) : State :=
  { s with inbox := ts.map (HostEvent.command .idle) ++ s.inbox }

/-- The primes below 410, by trial division: the first 80 of them. -/
def smallPrimes : List Nat :=
  (List.range 410).filter fun p => decide (2 ≤ p) && (List.range p).all fun d => decide (d < 2) || decide (p % d ≠ 0)

end Sys2Proof.Machine
end

