-- ==== Sys2Proof/Certificates/Slice0/Obligations.lean ====
section
/-! DEFINITION. The statements about SHA2-CORE, one for each entry of OBLIGATIONS.json. -/

open Sys2Proof Sys2Proof.Machine

/-! Encoding -/

/-- The worked encodings of 30_encoding.md section 7: the words written out there decode to the commands they stand for,
and the illegal ones to the reason they are illegal. -/
def Obligations.WorkedCommandWordsDecode : Prop :=
  decode { cw := 0x00000001, payload := [] } = .ok .reset ∧
  decode { cw := 0x00000302, payload := [0x61, 0x62, 0x63] } = .ok (.update [0x61, 0x62, 0x63]) ∧
  decode { cw := 0x00000002, payload := [] } = .ok (.update []) ∧
  decode { cw := 0x00000003, payload := [] } = .ok .finalize ∧
  decode { cw := 0x00000004, payload := [] } = .ok .qsize ∧
  decode { cw := 0x00000000, payload := [] } = .error .reservedOp ∧
  decode { cw := 0x00000012, payload := [] } = .error .reservedField ∧
  decode { cw := 0x00000103, payload := [0x00] } = .error .operandCount ∧
  ∀ p : List Byte, p.length = 2 ^ 24 - 1 →
    Transaction.wf { cw := 0xFFFFFF02, payload := p } = true ∧ decode { cw := 0xFFFFFF02, payload := p } = .ok (.update p)

/-- Every well-formed command, with every payload its encoding admits, comes back from its transaction. -/
def Obligations.DecodeInvertsEncode : Prop :=
  ∀ i : Instr, i.wf = true → (encode i).wf = true ∧ decode (encode i) = .ok i

/-- Every legal transaction is the encoding of the one command it decodes to. -/
def Obligations.EncodeInvertsDecode : Prop :=
  ∀ (t : Transaction) (i : Instr), t.wf = true → decode t = .ok i → i.wf = true ∧ encode i = t

/-- Rule R111: the decoder agrees with the table of matches and masks, a word that matches no row is illegal and executes
as `E_ILLEGAL`, no word matches two rows, and the operand of UPDATE is the payload. -/
def Obligations.DecoderAgreesWithOpcodeTable : Prop :=
  (∀ (t : Transaction) (r : OpcodeRow), r ∈ opcodeTable →
    (r.covers t.cw = true ↔ ∃ i, decode t = .ok i ∧ i.mnemonic = r.mnemonic)) ∧
  (∀ t : Transaction, (∃ err, decode t = .error err) ↔ ∀ r ∈ opcodeTable, r.covers t.cw = false) ∧
  (∀ (cw : BitVec 32) (r₁ r₂ : OpcodeRow), r₁ ∈ opcodeTable → r₂ ∈ opcodeTable →
    r₁.covers cw = true → r₂.covers cw = true → r₁ = r₂) ∧
  (∀ (t : Transaction) (p : List Byte), decode t = .ok (.update p) → p = t.payload) ∧
  (∀ t : Transaction, (∀ r ∈ opcodeTable, r.covers t.cw = false) → AnsweredIllegal t)

/-- Rules R105 to R108 and R301: the illegal command words are exactly those of the three cases. One of them, in either
phase and with whatever payload, is answered with `E_ILLEGAL` (`RW = 0x00000001`, no data) and changes nothing: its
payload is taken off the interface and not absorbed. -/
def Obligations.IllegalWordsAreAnsweredAndChangeNothing : Prop :=
  (∀ t : Transaction, (∃ err, decode t = .error err) ↔
    (opField t.cw = 0x0 ∨ 0x5 ≤ (opField t.cw).toNat) ∨ rsvField t.cw ≠ 0 ∨
      ((opField t.cw = 0x1 ∨ opField t.cw = 0x3 ∨ opField t.cw = 0x4) ∧ nField t.cw ≠ 0)) ∧
  (∀ (t : Transaction) (err : DecodeError), decode t = .error err → AnsweredIllegal t)

/-! One step -/

/-- When the transaction the host presents decodes to a command, the step is that command at that state, with the
transaction taken off the interface. A well-formed command presented as its own encoding runs just so. -/
def Obligations.StepRunsThePresentedCommand : Prop :=
  (∀ (s : State) (t : Transaction) (rest : List HostEvent) (i : Instr),
    s.ready = true → t.wf = true → s.inbox = .command .idle t :: rest → decode t = .ok i →
      step s = exec i { s with inbox := rest }) ∧
  (∀ (s : State) (i : Instr), s.ready = true → i.wf = true →
      step { s with inbox := .command .idle (encode i) :: s.inbox } = exec i s)

/-- With nothing presented the instance keeps its state. The model's choice of an idle step (log entry 5), deduced from
the rules that say what writes each register. -/
def Obligations.IdleStepKeepsTheState : Prop :=
  ∀ s : State, s.inbox = [] → step s = .next s

/-- Rests on rules R103, R401, R402 and R410: a payload of another length than `N`, a command before the first hardware
reset, a command before the previous response and a hardware reset during a command are refused: the model gives them no
step. That each has a refusal of its own name, and which name is given where several duties fail at once (busy first, then
the missing reset, then the payload length), is log entry 10; that an event carries its moment is log entry 4, and `ready`
is log entry 7. -/
def Obligations.HostDutiesNotMetAreRefused : Prop :=
  ∀ (s : State) (t : Transaction) (rest : List HostEvent),
    (s.inbox = .command .idle t :: rest → s.ready = false → step s = .refused .commandBeforeReset) ∧
    (s.inbox = .command .idle t :: rest → s.ready = true → t.payload.length ≠ (nField t.cw).toNat →
      step s = .refused .malformedPayload) ∧
    (s.inbox = .command .busy t :: rest → step s = .refused .overlappingCommand) ∧
    (s.inbox = .hardReset .busy :: rest → step s = .refused .resetDuringCommand)

/-- Rules R110, R303 and R304: every admitted command completes with one response. Its status is `E_ILLEGAL` where the
word does not decode, else `E_FINALIZED` where UPDATE or FINALIZE is given in phase `FINALIZED`, else `OK`: decode is
checked before the phase, and no other condition is an error. -/
def Obligations.EveryCommandCompletesWithTheStatusOfTheFirstFailedCheck : Prop :=
  ∀ (s : State) (t : Transaction) (rest : List HostEvent),
    s.ready = true → t.wf = true → s.inbox = .command .idle t :: rest →
      ∃ (s' : State) (r : Response), step s = .next s' ∧ s'.inbox = rest ∧ s'.outbox = s.outbox ++ [r] ∧
        ((∃ err, decode t = .error err) → r.rw.extractLsb' 0 4 = 0x1) ∧
        (((∃ p, decode t = .ok (.update p)) ∨ decode t = .ok .finalize) → s.engine.phase = .finalized →
          r.rw.extractLsb' 0 4 = 0x2) ∧
        (((∃ p, decode t = .ok (.update p)) ∨ decode t = .ok .finalize) → s.engine.phase = .absorbing →
          r.rw.extractLsb' 0 4 = 0x0) ∧
        ((decode t = .ok .reset ∨ decode t = .ok .qsize) → r.rw.extractLsb' 0 4 = 0x0)

/-- Rule R109: the form of the response to any command. -/
def Obligations.ResponsesHaveTheirForm : Prop :=
  ∀ (s s' : State) (t : Transaction) (rest : List HostEvent),
    s.inbox = .command .idle t :: rest → step s = .next s' →
      ∃ r : Response, s'.outbox = s.outbox ++ [r] ∧
        r.rw.extractLsb' 4 4 = 0 ∧
        (decode t = .ok .qsize → r.rw.extractLsb' 8 24 = BitVec.ofNat 24 s.variant.D) ∧
        (decode t ≠ .ok .qsize → r.rw.extractLsb' 8 24 = 0) ∧
        (decode t = .ok .finalize → r.rw.extractLsb' 0 4 = 0x0 → ∃ e : Engine s.variant, s' =
          { s with engine := e, inbox := rest, outbox := s.outbox ++ [r] } ∧ r.dout = serialize e.H ∧
          r.dout.length = s.variant.D) ∧
        ((decode t ≠ .ok .finalize ∨ r.rw.extractLsb' 0 4 ≠ 0x0) → r.dout = [])

/-- Rules R300 and R308: a command that fails a check has the error code as its status, `VALUE = 0` and no data in its
response, and everything of the machine but its interface is exactly as before. -/
def Obligations.RejectedCommandsChangeNothing : Prop :=
  ∀ (s s' : State) (t : Transaction) (rest : List HostEvent),
    s.inbox = .command .idle t :: rest → step s = .next s' →
      ∃ r : Response, s'.outbox = s.outbox ++ [r] ∧
        ((∃ err, decode t = .error err) → r.rw.extractLsb' 0 4 = 0x1) ∧
        (((∃ p, decode t = .ok (.update p)) ∨ decode t = .ok .finalize) → s.engine.phase = .finalized →
          r.rw.extractLsb' 0 4 = 0x2) ∧
        (r.rw.extractLsb' 0 4 ≠ 0x0 →
          r.rw.extractLsb' 8 24 = 0 ∧ r.dout = [] ∧
          s' = { s with inbox := rest, outbox := s.outbox ++ [r] })

/-- Rule R306: an error leaves no trace. After a rejected command everything goes on as if it had not been issued: the
same responses follow, and the same state is reached. -/
def Obligations.RejectedCommandsLeaveNoTrace : Prop :=
  ∀ (s s' u : State) (t : Transaction) (rest : List HostEvent) (r : Response) (k : Nat),
    s.inbox = .command .idle t :: rest → step s = .next s' →
    s'.outbox = s.outbox ++ [r] → r.rw.extractLsb' 0 4 ≠ 0x0 →
    Host.Core.run Sys2Proof.core k s' = .next u →
      ∃ given : List Response, u.outbox = s.outbox ++ [r] ++ given ∧
        Host.Core.run Sys2Proof.core k { s with inbox := rest } = .next { u with outbox := s.outbox ++ given }

/-- Rule R82: the state after a sequence of events is the sequential composition of what each does, in order. -/
def Obligations.EventsComposeInOrder : Prop :=
  ∀ (s t : State) (xs ys : List HostEvent) (k : Nat),
    Host.Core.run Sys2Proof.core xs.length { s with inbox := xs } = .next t →
      t.inbox = [] ∧
      Host.Core.run Sys2Proof.core (xs.length + k) { s with inbox := xs ++ ys } =
        Host.Core.run Sys2Proof.core k { t with inbox := ys }

/-! Reset, QSIZE and the machine as a whole -/

/-- Rests on rules R47, R260 and R400: the initial state `S0`, the state the RESET command leaves and the state the
hardware reset leaves are one: `H` is the IV, `FILLED` and `LENGTH` are 0 and `PHASE` is `ABSORBING`. RESET answers `RW =
0x00000000` with no data, and the hardware reset gives no response. Nothing else changes, but that the hardware reset
makes the instance ready (log entry 7). That the three engines are one with `BUF` included is the form of log entry 2: the
spec leaves those bytes unspecified. One word decodes to RESET, and any other with its `OP` is illegal. -/
def Obligations.ResetGivesTheInitialState : Prop :=
  (∀ t : Transaction, decode t = .ok .reset ↔ t.cw = 0x00000001) ∧
  (∀ t : Transaction, opField t.cw = 0x1 → t.cw ≠ 0x00000001 → AnsweredIllegal t) ∧
  ∀ s : State, ∃ e : Engine s.variant,
    exec .reset s = .next { s with engine := e, outbox := s.outbox ++ [{ rw := 0x00000000, dout := [] }] } ∧
    handle (.hardReset .idle) s = .next { s with engine := e, ready := true } ∧
    (State.resetOf s.variant).engine = e ∧
    e.H = iv s.variant ∧ e.filled.toNat = 0 ∧ e.length.toNat = 0 ∧ e.phase = .absorbing

/-- What the model makes of "unspecified" and "stale" (log entry 2, one of the forms rule R38 allows): a byte of `BUF`
that holds nothing has no value. That is every byte after a reset, those from `FILLED` on after an `ABSORB` from a buffer
that holds exactly its pending bytes, and every byte after a FINALIZE, from whatever state. -/
def Obligations.StaleBytesHaveNoValue : Prop :=
  (∀ (v : Variant) (a : Nat), (State.resetOf v).readBuf a = none) ∧
  (∀ (s t : State) (a : Nat), exec .reset s = .next t → t.readBuf a = none) ∧
  (∀ (v : Variant) (e : Engine v) (s : List Byte) (j : Nat), e.Inv →
    (e.filled.toNat + s.length) % v.B ≤ j → (absorb e s).buf.read j = none) ∧
  (∀ (s t : State) (a : Nat), s.engine.phase = .absorbing → exec .finalize s = .next t → t.readBuf a = none)

/-- Rule R261: no response after a RESET depends on what came before it. Two instances of one variant with any two engine
states and any two histories of responses answer everything after a RESET alike. -/
def Obligations.NothingBeforeAResetMatters : Prop :=
  ∀ (s t : State) (e₁ e₂ : Engine s.variant) (past₁ past₂ : List Response) (later : List HostEvent) (k : Nat),
    Host.Core.run Sys2Proof.core (k + 1)
        { s with engine := e₁, outbox := past₁, inbox := .command .idle (encode .reset) :: later } = .next t →
      ∃ (u : State) (given : List Response), t.outbox = past₁ ++ given ∧
        Host.Core.run Sys2Proof.core (k + 1)
            { s with engine := e₂, outbox := past₂, inbox := .command .idle (encode .reset) :: later } = .next u ∧
        u.outbox = past₂ ++ given

/-- Rule R262: QSIZE answers `VALUE = D` in every state, `RW = 0x00002000` on a SHA256 instance and `0x00004000` on a
SHA512 instance, and changes nothing else. One word decodes to it, and any other with its `OP` is illegal. -/
def Obligations.QsizeAnswersTheDigestSize : Prop :=
  (∀ t : Transaction, decode t = .ok .qsize ↔ t.cw = 0x00000004) ∧
  (∀ t : Transaction, opField t.cw = 0x4 → t.cw ≠ 0x00000004 → AnsweredIllegal t) ∧
  ∀ s : State,
    (s.variant = .sha256 →
      exec .qsize s = .next { s with outbox := s.outbox ++ [{ rw := 0x00002000, dout := [] }] }) ∧
    (s.variant = .sha512 →
      exec .qsize s = .next { s with outbox := s.outbox ++ [{ rw := 0x00004000, dout := [] }] })

/-- Rests on rule R81: RESET and QSIZE are idempotent on the engine. UPDATE with a payload is not, and FINALIZE is not. -/
def Obligations.OnlyUpdateAndFinalizeAreNotIdempotent : Prop :=
  (∀ s s₁ s₂ : State, exec .reset s = .next s₁ → exec .reset s₁ = .next s₂ →
    s₂ = { s₁ with outbox := s₂.outbox } ∧ s₂.engine = Engine.s0 s₂.variant) ∧
  (∀ s s₁ s₂ : State, exec .qsize s = .next s₁ → exec .qsize s₁ = .next s₂ →
    s₁ = { s with outbox := s₁.outbox } ∧ s₂ = { s₁ with outbox := s₂.outbox }) ∧
  (∀ (s s₁ s₂ : State) (p : List Byte), s.engine.phase = .absorbing → p ≠ [] → (Instr.update p).wf = true →
    exec (.update p) s = .next s₁ → exec (.update p) s₁ = .next s₂ →
      s₂.engine.length.toNat ≠ s₁.engine.length.toNat) ∧
  (∀ s s₁ s₂ : State, s.engine.phase = .absorbing → exec .finalize s = .next s₁ → exec .finalize s₁ = .next s₂ →
    ∃ r₁ r₂ : Response, s₁.outbox = s.outbox ++ [r₁] ∧ s₂.outbox = s₁.outbox ++ [r₂] ∧
      r₁.rw.extractLsb' 0 4 = 0x0 ∧ r₂.rw.extractLsb' 0 4 = 0x2)

/-- What QSIZE, and UPDATE and FINALIZE in phase `FINALIZED`, leave unchanged: everything but the responses given, and so
every byte of `BUF`. -/
def Obligations.CommandsThatStoreNothingKeepEveryByte : Prop :=
  ∀ (i : Instr) (s t : State),
    (i = .qsize ∨ (((∃ p, i = .update p) ∨ i = .finalize) ∧ s.engine.phase = .finalized)) →
    exec i s = .next t →
      t = { s with outbox := t.outbox } ∧ ∀ a, t.readBuf a = s.readBuf a

/-- Rests on rules R44 and R45: a FINALIZE in phase `ABSORBING` sets `PHASE` to `FINALIZED` (1), RESET and the hardware
reset set it to `ABSORBING` (0), and every other command leaves it as it was. -/
def Obligations.PhaseIsWrittenOnlyByFinalizeAndReset : Prop :=
  (∀ (i : Instr) (s t : State), exec i s = .next t →
    (i = .finalize → t.engine.phase = .finalized ∧ t.engine.phase.bit = 1) ∧
    (i = .reset → t.engine.phase = .absorbing ∧ t.engine.phase.bit = 0) ∧
    (i ≠ .finalize → i ≠ .reset → t.engine.phase = s.engine.phase)) ∧
  (∀ s t : State, handle (.hardReset .idle) s = .next t → t.engine.phase = .absorbing)

/-- Rests on rule R32: a command that changes `H` is RESET, which writes the IV, or UPDATE or FINALIZE, which write what
`COMPRESS` gives for the blocks they compress. -/
def Obligations.HashIsWrittenOnlyByResetAndCompress : Prop :=
  ∀ (i : Instr) (s : State), ∃ (e : Engine s.variant) (r : Response),
    exec i s = .next { s with engine := e, outbox := s.outbox ++ [r] } ∧
    (i = .reset → e.H = iv s.variant) ∧
    (i = .qsize → e.H = s.engine.H) ∧
    (∀ p, i = .update p → s.engine.phase = .absorbing →
      e.H = compressStar s.engine.H (absorbBlocks s.engine p)) ∧
    (i = .finalize → s.engine.phase = .absorbing → e.H = compressStar s.engine.H (padBlocks s.engine)) ∧
    (i ≠ .reset → s.engine.phase = .finalized → e.H = s.engine.H)

/-- The only ways out of phase `FINALIZED` are the RESET command and the hardware reset (rule R260). A power cycle leaves
an instance that is not ready (rule R401). -/
def Obligations.FinalizedIsLeftOnlyByReset : Prop :=
  ∀ s s' : State, s.ready = true → s.engine.phase = .finalized → step s = .next s' →
    s'.ready = true → s'.engine.phase = .absorbing →
      (∃ rest, s.inbox = .command .idle { cw := 0x00000001, payload := [] } :: rest) ∨
      (∃ rest, s.inbox = .hardReset .idle :: rest)

/-- Rests on rules R316, R400 and R401: after a power cycle no command is admitted, and the hardware reset then gives
`S0`. -/
def Obligations.PowerUpNeedsTheHardwareReset : Prop :=
  ∀ (s : State) (rest : List HostEvent), s.inbox = .powerCycle :: rest →
    ∃ t : State, step s = .next t ∧ t.inbox = rest ∧ t.variant = s.variant ∧ t.outbox = s.outbox ∧
      (∀ tr more, rest = .command .idle tr :: more → step t = .refused .commandBeforeReset) ∧
      (∀ more, rest = .hardReset .idle :: more → ∃ t' : State, step t = .next t' ∧
        t' = { t with engine := Engine.s0 t.variant, ready := true, inbox := more })

/-- Rests on rule R3: no step changes the variant of an instance. -/
def Obligations.VariantNeverChanges : Prop :=
  ∀ s s' : State, step s = .next s' → s'.variant = s.variant

/-- The invariant of rules R37, R38 and R229 holds right after reset, for either variant. -/
def Obligations.InvariantHoldsAtReset : Prop :=
  State.reset.Inv ∧ ∀ v : Variant, (State.resetOf v).Inv ∧ (State.resetOf v).engine.buf.wf v.B = true

/-- Every step keeps the invariant, from every state that meets it: `BUF` holds a value at exactly the indices below
`FILLED`, and after a FINALIZE nothing is buffered. -/
def Obligations.StepKeepsTheInvariant : Prop :=
  ∀ s s' : State, s.Inv → step s = .next s' → s'.Inv

/-- Every step keeps `BUF` in its canonical form, from every state in which it has it: indices strictly rising and below
`B`. -/
def Obligations.StepKeepsTheBufferCanonical : Prop :=
  ∀ s s' : State, s.engine.buf.wf s.variant.B = true → step s = .next s' → s'.engine.buf.wf s'.variant.B = true

/-! UPDATE and ABSORB -/

/-- Rests on rule R131: UPDATE. The words that decode to it are those of its match and mask, any other with its `OP` is
illegal, and its operand is the payload. In phase `ABSORBING` it completes: it absorbs its payload and answers `RW =
0x00000000` with no data. `LENGTH` grows by the payload's byte count modulo `2^L`, `FILLED` by the count modulo `B`,
`PHASE` stays, and `COMPRESS` is called `floor((F0 + N)/B)` times. Where `BUF` holds exactly its pending bytes, it does so
afterwards (that the bytes from `FILLED` on then have no value is log entry 2), `H` is compressed by the whole blocks of
those bytes followed by the payload, and the remainder is pending. In phase `FINALIZED` it answers `E_FINALIZED` and
changes nothing. -/
def Obligations.UpdateAbsorbsItsPayload : Prop :=
  (∀ (t : Transaction) (p : List Byte),
    decode t = .ok (.update p) ↔ t.cw &&& 0x000000FF = 0x00000002 ∧ p = t.payload) ∧
  (∀ t : Transaction, opField t.cw = 0x2 → rsvField t.cw ≠ 0 → AnsweredIllegal t) ∧
  (∀ (s : State) (p : List Byte), s.engine.phase = .absorbing →
    ∃ e : Engine s.variant,
      exec (.update p) s = .next { s with engine := e, outbox := s.outbox ++ [{ rw := 0x00000000, dout := [] }] } ∧
      e = absorb s.engine p ∧
      e.phase = .absorbing ∧
      e.length.toNat = (s.engine.length.toNat + p.length) % 2 ^ s.variant.L ∧
      e.filled.toNat = (s.engine.filled.toNat + p.length) % s.variant.B ∧
      (absorbBlocks s.engine p).length = (s.engine.filled.toNat + p.length) / s.variant.B ∧
      (s.engine.Inv →
        e.Inv ∧
        e.H = compressStar s.engine.H (blocksOf s.variant (s.engine.pending ++ p)) ∧
        e.pending = (s.engine.pending ++ p).drop ((s.engine.filled.toNat + p.length) - e.filled.toNat))) ∧
  (∀ (s : State) (p : List Byte), s.engine.phase = .finalized →
    exec (.update p) s = .next { s with outbox := s.outbox ++ [{ rw := 0x00000002, dout := [] }] })

/-- Rules R134 and R139: from a buffer that holds exactly its pending bytes, `ABSORB(s)` calls `COMPRESS` `floor((F0 +
n)/B)` times, call `j` on the bytes `[(j−1)·B, j·B)` of `BUF[0 .. F0) ++ s`, each call on what the one before left. No
call sees a stale byte. -/
def Obligations.AbsorbCompressesTheWholeBlocksInOrder : Prop :=
  ∀ (v : Variant) (e : Engine v) (s : List Byte), e.Inv →
    (absorbBlocks e s).length = (e.filled.toNat + s.length) / v.B ∧
    (∀ j, j < (e.filled.toNat + s.length) / v.B →
      (absorbBlocks e s)[j]? = some (((e.pending ++ s).drop (v.B * j)).take v.B)) ∧
    (∀ j, j < e.filled.toNat → e.buf.read j = e.pending[j]?) ∧
    (absorb e s).H = compressStar e.H (absorbBlocks e s)

/-- Rule R135: what `ABSORB(s)` leaves in `FILLED`, `LENGTH` and the bytes of `BUF` below `FILLED`. -/
def Obligations.AbsorbLeavesTheRemainderBuffered : Prop :=
  ∀ (v : Variant) (e : Engine v) (s : List Byte), e.Inv →
    (absorb e s).filled.toNat = (e.filled.toNat + s.length) % v.B ∧
    (∀ j, j < (e.filled.toNat + s.length) % v.B →
      (absorb e s).buf.read j =
        (e.pending ++ s)[(e.filled.toNat + s.length) - (e.filled.toNat + s.length) % v.B + j]?) ∧
    (absorb e s).length.toNat = (e.length.toNat + s.length) % 2 ^ v.L

/-- Rule R136: absorbing nothing changes nothing, and an UPDATE with `N = 0` in phase `ABSORBING` answers `OK` and leaves
the engine as it was. -/
def Obligations.EmptyUpdateIsAcceptedAndChangesNothing : Prop :=
  (∀ (v : Variant) (e : Engine v), absorb e [] = e) ∧
  (∀ s : State, s.engine.phase = .absorbing →
    exec (.update []) s = .next { s with outbox := s.outbox ++ [{ rw := 0x00000000, dout := [] }] })

/-- Rests on rule R132, and says more than rule R137: chunking invariance of the whole engine, from every engine state.
Any split of a byte sequence, empty pieces included, leaves what the whole leaves. Rule R137 equates `H`, `FILLED`,
`LENGTH` and the valid bytes. That the stale bytes agree too is the model's form (log entry 2), and in states that break
rule R37 the agreement of `H` rests on what a stale byte reads as (log entry 3). -/
def Obligations.ChunkingDoesNotMatter : Prop :=
  (∀ (v : Variant) (e : Engine v) (x y : List Byte), absorb (absorb e x) y = absorb e (x ++ y)) ∧
  (∀ (v : Variant) (e : Engine v) (pieces : List (List Byte)), pieces.foldl absorb e = absorb e pieces.flatten)

/-- Rests on rules R79 and R132, and says more than they: payload data enters one byte at a time in meaning. `ABSORB(s)`
leaves the whole engine that absorbing its bytes one after another leaves, from every engine state. Rule R137 lets the
stale bytes of two splits differ: that they agree is the model's form (log entry 2), and in states that break rule R37 the
agreement of `H` rests on what a stale byte reads as (log entry 3). One byte is written at `FILLED`, and the one that
fills the buffer makes `COMPRESS` run on it and leaves `FILLED = 0`. In states that break rule R37 the block of that call
too has what a stale byte reads as (log entry 3). -/
def Obligations.AbsorbEntersOneByteAtATime : Prop :=
  (∀ (v : Variant) (e : Engine v) (s : List Byte), absorb e s = s.foldl (fun e b => absorb e [b]) e) ∧
  (∀ (v : Variant) (e : Engine v) (b : Byte), e.filled.toNat + 1 < v.B →
    (absorb e [b]).H = e.H ∧ (absorb e [b]).filled.toNat = e.filled.toNat + 1 ∧
    (absorb e [b]).buf = e.buf.write e.filled.toNat b) ∧
  (∀ (v : Variant) (e : Engine v) (b : Byte), e.filled.toNat + 1 = v.B →
    (absorb e [b]).H = compress e.H (memRead (e.buf.write e.filled.toNat b) 0 v.B) ∧
    (absorb e [b]).filled.toNat = 0)

/-- Rule R133: the `LENGTH` addition wraps modulo `2^L`. The absorption neither stops nor reports an error because of it:
all else that UPDATE leaves is the same whatever `LENGTH` was. -/
def Obligations.LengthWrapsAndNothingElseDependsOnIt : Prop :=
  (∀ (v : Variant) (e : Engine v) (s : List Byte),
    (absorb e s).length.toNat = (e.length.toNat + s.length) % 2 ^ v.L) ∧
  (∀ (v : Variant) (e : Engine v) (x : BitVec v.L) (s : List Byte),
    absorb { e with length := x } s = { absorb e s with length := x + BitVec.ofNat v.L s.length }) ∧
  (∀ (s : State) (p : List Byte) (x : BitVec s.variant.L), s.engine.phase = .absorbing →
    ∃ e : Engine s.variant, exec (.update p) { s with engine := { s.engine with length := x } } =
      .next { s with engine := e, outbox := s.outbox ++ [{ rw := 0x00000000, dout := [] }] })

/-- The frame of an UPDATE that does not fill the buffer, from any state in phase `ABSORBING`: the payload is stored from
`FILLED` on, and every other byte of `BUF`, `H`, `PHASE` and the rest of the machine stay. -/
def Obligations.UpdateWithinTheBlockStoresOnlyItsPayload : Prop :=
  ∀ (s : State) (p : List Byte), s.engine.phase = .absorbing → s.engine.filled.toNat + p.length < s.variant.B →
    ∃ e : Engine s.variant,
      exec (.update p) s = .next { s with engine := e, outbox := s.outbox ++ [{ rw := 0x00000000, dout := [] }] } ∧
      e.H = s.engine.H ∧ e.phase = s.engine.phase ∧
      e.filled.toNat = s.engine.filled.toNat + p.length ∧
      (∀ a, a < s.engine.filled.toNat ∨ s.engine.filled.toNat + p.length ≤ a → e.buf.read a = s.engine.buf.read a) ∧
      (∀ j, j < p.length → e.buf.read (s.engine.filled.toNat + j) = p[j]?)

/-- Rule R302: in phase `FINALIZED`, UPDATE with any payload, the empty one included, and FINALIZE answer `E_FINALIZED`
(`RW = 0x00000002`, no data) and change nothing. -/
def Obligations.UpdateAndFinalizeAreRejectedAfterFinalize : Prop :=
  ∀ s : State, s.engine.phase = .finalized →
    (∀ p, exec (.update p) s = .next { s with outbox := s.outbox ++ [{ rw := 0x00000002, dout := [] }] }) ∧
    exec .finalize s = .next { s with outbox := s.outbox ++ [{ rw := 0x00000002, dout := [] }] }

/-- Rests on rule R138: after a reset the engine stands for the empty message, an UPDATE appends its payload to the
message it stands for, and QSIZE and an illegal word keep it. Beside what the rule says, `Absorbed` says that no byte from
`FILLED` on has a value, which is log entry 2. -/
def Obligations.EngineStandsForTheMessageAbsorbed : Prop :=
  (∀ v : Variant, Absorbed (State.resetOf v).engine []) ∧
  (∀ s t : State, exec .reset s = .next t → Absorbed t.engine []) ∧
  (∀ s t : State, handle (.hardReset .idle) s = .next t → Absorbed t.engine []) ∧
  (∀ (s t : State) (m p : List Byte), Absorbed s.engine m → exec (.update p) s = .next t → Absorbed t.engine (m ++ p)) ∧
  (∀ (s t : State) (m : List Byte), Absorbed s.engine m → exec .qsize s = .next t → Absorbed t.engine m) ∧
  (∀ (s t : State) (m : List Byte) (tr : Transaction) (err : DecodeError), Absorbed s.engine m →
    decode tr = .error err → transact tr s = .next t → Absorbed t.engine m)

/-- Rests on rule R420: how many times each command calls `COMPRESS`. -/
def Obligations.CompressCallsOfEachCommand : Prop :=
  ∀ s : State,
    compressCalls .reset s = 0 ∧ compressCalls .qsize s = 0 ∧
    (s.engine.phase = .absorbing →
      (∀ p, compressCalls (.update p) s = (s.engine.filled.toNat + p.length) / s.variant.B) ∧
      compressCalls .finalize s =
        if s.engine.filled.toNat ≤ s.variant.B - s.variant.Lf - 1 then 1 else 2)

/-! FINALIZE -/

/-- Rules R221, R222, R227 and R229: FINALIZE. One word decodes to it, and any other with its `OP` is illegal. In phase
`ABSORBING` it completes: it absorbs the padding, with the bit length latched from `LENGTH` at entry, answers `RW =
0x00000000` with the serialized state, leaves `PHASE = FINALIZED`, `FILLED = 0` and `LENGTH` grown by the padding, and
calls `COMPRESS` once or twice. In phase `FINALIZED` it answers `E_FINALIZED` and changes nothing. -/
def Obligations.FinalizePadsAndAnswersTheDigest : Prop :=
  (∀ t : Transaction, decode t = .ok .finalize ↔ t.cw = 0x00000003) ∧
  (∀ t : Transaction, opField t.cw = 0x3 → t.cw ≠ 0x00000003 → AnsweredIllegal t) ∧
  (∀ s : State, s.engine.phase = .absorbing → s.engine.Inv →
    ∃ e : Engine s.variant,
      exec .finalize s =
        .next { s with engine := e, outbox := s.outbox ++ [{ rw := 0x00000000, dout := serialize e.H }] } ∧
      e.phase = .finalized ∧ e.filled.toNat = 0 ∧
      e.length.toNat = (s.engine.length.toNat +
        (padding s.variant s.engine.filled.toNat ((8 * s.engine.length.toNat) % 2 ^ s.variant.L)).length)
          % 2 ^ s.variant.L ∧
      e.H = compressStar s.engine.H (blocksOf s.variant (s.engine.pending ++
        padding s.variant s.engine.filled.toNat ((8 * s.engine.length.toNat) % 2 ^ s.variant.L))) ∧
      (padBlocks s.engine).length =
        if s.engine.filled.toNat ≤ s.variant.B - s.variant.Lf - 1 then 1 else 2) ∧
  (∀ s : State, s.engine.phase = .finalized →
    exec .finalize s = .next { s with outbox := s.outbox ++ [{ rw := 0x00000002, dout := [] }] })

/-- FINALIZE in phase `ABSORBING` completes from every engine state, one that breaks rule R37 included. -/
def Obligations.FinalizeCompletesFromEveryAbsorbingState : Prop :=
  ∀ s : State, s.engine.phase = .absorbing →
    ∃ e : Engine s.variant,
      exec .finalize s =
        .next { s with engine := e, outbox := s.outbox ++ [{ rw := 0x00000000, dout := serialize e.H }] } ∧
      e.phase = .finalized ∧ e.filled.toNat = 0

/-- Rule R228: the padding length law, and the number of `COMPRESS` calls of a FINALIZE. -/
def Obligations.PaddingLengthLaw : Prop :=
  ∀ (v : Variant) (F0 : Nat), F0 < v.B →
    ((zeroCount v ((F0 + 1) % v.B) : Int) = ((v.B : Int) - v.Lf - 1 - F0) % v.B) ∧
    (F0 + (1 + zeroCount v ((F0 + 1) % v.B) + v.Lf)) % v.B = 0 ∧
    v.Lf + 1 ≤ 1 + zeroCount v ((F0 + 1) % v.B) + v.Lf ∧
    1 + zeroCount v ((F0 + 1) % v.B) + v.Lf ≤ v.B + v.Lf ∧
    (∀ e : Engine v, e.filled.toNat = F0 →
      (padBlocks e).length = if F0 ≤ v.B - v.Lf - 1 then 1 else 2)

/-- Rule R230: the bit length of the message `m` is `(8·|m|) mod 2^L`, however long `m` is. It wraps once `|m| ≥ 2^(L−3)`.
-/
def Obligations.BitLengthWraps : Prop :=
  ∀ (v : Variant) (e : Engine v) (m : List Byte), Absorbed e m →
    (bitLength e.length).toNat = (8 * m.length) % 2 ^ v.L ∧
    ((bitLength e.length).toNat ≠ 8 * m.length ↔ 2 ^ (v.L - 3) ≤ m.length)

/-- Rule R226: the digest has `D` bytes, and its byte `NB·i + j` is bits `W−1−8j` to `W−8−8j` of `H[i]`. -/
def Obligations.DigestBytesAreTheStateWords : Prop :=
  ∀ (v : Variant) (H : Vector (Word v) 8),
    (serialize H).length = v.D ∧
    ∀ (i : Fin 8) (j : Nat), j < v.NB →
      (serialize H)[v.NB * i.val + j]? = some (H[i.val].extractLsb' (v.W - 8 - 8 * j) 8)

/-- Rule R232: the digest of a message in closed form. The padded message is whole blocks. From any ready state, RESET,
then UPDATEs of any pieces, then FINALIZE answer `OK` each, the last with the serialization of `COMPRESS*(IV, pad(m))` for
the concatenation `m` of the pieces. -/
def Obligations.DigestOfAMessageInAnyPieces : Prop :=
  (∀ (v : Variant) (m : List Byte), (pad v m).length % v.B = 0) ∧
  ∀ (s : State) (pieces : List (List Byte)), s.ready = true → (∀ p ∈ pieces, (Instr.update p).wf = true) →
    ∃ t : State,
      Host.Core.run Sys2Proof.core (pieces.length + 2)
        (s.presentAll (encode .reset :: pieces.map (fun p => encode (.update p)) ++ [encode .finalize])) = .next t ∧
      t.inbox = s.inbox ∧
      t.outbox = s.outbox ++ List.replicate (pieces.length + 1) { rw := 0x00000000, dout := [] } ++
        [{ rw := 0x00000000, dout := digest s.variant pieces.flatten }]

/-- What a host sees of one instance is told by messages and digests alone: from any ready state that stands for a
session, every list of well-formed transactions is answered, response by response, as the session says. -/
def Obligations.ResponsesFollowTheSession : Prop :=
  ∀ (s : State) (σ : Session) (ts : List Transaction), s.ready = true → Represents s.engine σ →
    (∀ t ∈ ts, t.wf = true) →
    ∃ s' : State,
      Host.Core.run Sys2Proof.core ts.length (s.presentAll ts) = .next s' ∧
      s'.inbox = s.inbox ∧ s'.outbox = s.outbox ++ Session.responses s.variant σ ts

/-- Rule R115: `UPDATE_LONG s` expands to UPDATEs of the successive pieces of `c = 2^24 − 1` bytes, which concatenate to
`s` and fit one UPDATE each, none of them empty but the one of the empty sequence. `HASH s` is RESET, `UPDATE_LONG s` and
FINALIZE, and answers the digest of `s`. -/
def Obligations.PseudoCommandsExpand : Prop :=
  (∀ s : List Byte, (PseudoCommand.updateLong s).expand = (longPayloads s).map Instr.update ∧
    (PseudoCommand.hash s).expand = [Instr.reset] ++ (PseudoCommand.updateLong s).expand ++ [Instr.finalize] ∧
    (longPayloads s).flatten = s ∧ (∀ p ∈ longPayloads s, (Instr.update p).wf = true) ∧
    (∀ j, j < (longPayloads s).length →
      (longPayloads s)[j]? = some ((s.drop ((2 ^ 24 - 1) * j)).take (2 ^ 24 - 1))) ∧
    (s ≠ [] → [] ∉ longPayloads s) ∧ (s = [] → longPayloads s = [[]])) ∧
  (∀ (s : State) (m : List Byte), s.ready = true →
    ∃ t : State,
      Host.Core.run Sys2Proof.core (PseudoCommand.hash m).expand.length
        (s.presentAll ((PseudoCommand.hash m).expand.map encode)) = .next t ∧
      t.outbox.getLast? = some { rw := 0x00000000, dout := digest s.variant m })

/-! COMPRESS -/

/-- Rule R176: the message schedule. -/
def Obligations.ScheduleFollowsTheRecurrence : Prop :=
  ∀ (v : Variant) (blk : List Byte),
    (schedule v blk).length = v.R ∧
    (∀ t, t < 16 → (schedule v blk)[t]? = (parseBlock v blk)[t]?) ∧
    (∀ t, 16 ≤ t → t < v.R →
      (schedule v blk)[t]? = some ((schedule v blk).getD (t - 16) 0 + smallSigma0 ((schedule v blk).getD (t - 15) 0) +
        (schedule v blk).getD (t - 7) 0 + smallSigma1 ((schedule v blk).getD (t - 2) 0)))

/-- Rules R177 to R180: the working variables of `COMPRESS`, from the seed through rounds `0` to `R−1`, and the state it
returns. -/
def Obligations.CompressRunsTheRoundsInOrder : Prop :=
  ∀ (v : Variant) (H : Vector (Word v) 8) (blk : List Byte),
    ∃ x : Nat → WorkingVars v,
      x 0 = { a := H[0], b := H[1], c := H[2], d := H[3], e := H[4], f := H[5], g := H[6], h := H[7] } ∧
      (∀ t, t < v.R → ∃ t1 t2 : Word v,
        t1 = (x t).h + bigSigma1 (x t).e + ch (x t).e (x t).f (x t).g + (roundConstants v).getD t 0 +
          (schedule v blk).getD t 0 ∧
        t2 = bigSigma0 (x t).a + maj (x t).a (x t).b (x t).c ∧
        x (t + 1) = { a := t1 + t2, b := (x t).a, c := (x t).b, d := (x t).c,
                      e := (x t).d + t1, f := (x t).e, g := (x t).f, h := (x t).g }) ∧
      compress H blk = #v[H[0] + (x v.R).a, H[1] + (x v.R).b, H[2] + (x v.R).c, H[3] + (x v.R).d,
                          H[4] + (x v.R).e, H[5] + (x v.R).f, H[6] + (x v.R).g, H[7] + (x v.R).h]

/-- Rules R161 and R162: the formulas, and what they say bit by bit. -/
def Obligations.RotationAndShiftMoveBits : Prop :=
  ∀ (v : Variant) (n : Nat) (x : Word v), 0 < n → n < v.W →
    rotr n x = x >>> n ||| x <<< (v.W - n) ∧ shr n x = x >>> n ∧
    ∀ i, i < v.W →
      (rotr n x).getLsbD i = x.getLsbD ((i + n) % v.W) ∧
      (shr n x).getLsbD i = if i + n < v.W then x.getLsbD (i + n) else false

/-- Rules R163, R164 and R168: what `Ch` and `Maj` choose bit by bit, and their other forms. -/
def Obligations.ChChoosesAndMajTakesTheMajority : Prop :=
  ∀ (v : Variant) (x y z : Word v),
    (∀ i, i < v.W →
      (ch x y z).getLsbD i = (if x.getLsbD i then y.getLsbD i else z.getLsbD i) ∧
      (maj x y z).getLsbD i = decide (2 ≤ (x.getLsbD i).toNat + (y.getLsbD i).toNat + (z.getLsbD i).toNat)) ∧
    ch x y z = (x &&& y) ^^^ (~~~x &&& z) ∧
    maj x y z = (x &&& y) ^^^ (x &&& z) ^^^ (y &&& z) ∧
    ch x y z = (x &&& y) ||| (~~~x &&& z) ∧
    maj x y z = (x &&& y) ||| (x &&& z) ||| (y &&& z)

/-- Rules R165 and R166: the four rotation functions, with the amounts of each variant. -/
def Obligations.SigmaFunctionsRotateByTheirAmounts : Prop :=
  (∀ x : Word .sha256,
    bigSigma0 x = x.rotateRight 2 ^^^ x.rotateRight 13 ^^^ x.rotateRight 22 ∧
    bigSigma1 x = x.rotateRight 6 ^^^ x.rotateRight 11 ^^^ x.rotateRight 25 ∧
    smallSigma0 x = x.rotateRight 7 ^^^ x.rotateRight 18 ^^^ x >>> 3 ∧
    smallSigma1 x = x.rotateRight 17 ^^^ x.rotateRight 19 ^^^ x >>> 10) ∧
  (∀ x : Word .sha512,
    bigSigma0 x = x.rotateRight 28 ^^^ x.rotateRight 34 ^^^ x.rotateRight 39 ∧
    bigSigma1 x = x.rotateRight 14 ^^^ x.rotateRight 18 ^^^ x.rotateRight 41 ∧
    smallSigma0 x = x.rotateRight 1 ^^^ x.rotateRight 8 ^^^ x >>> 7 ∧
    smallSigma1 x = x.rotateRight 19 ^^^ x.rotateRight 61 ^^^ x >>> 6)

/-- Rule R167: no amount is 0 or reaches `W`, each of the four functions maps 0 to 0, `Σ0` and `Σ1` map all-ones to
all-ones, and `σ0` and `σ1` map it to its shift. -/
def Obligations.SigmaFunctionsOnZeroAndAllOnes : Prop :=
  ∀ v : Variant,
    (∀ n ∈ [(rotationAmounts v).a0, (rotationAmounts v).a1, (rotationAmounts v).a2, (rotationAmounts v).b0,
        (rotationAmounts v).b1, (rotationAmounts v).b2, (rotationAmounts v).c0, (rotationAmounts v).c1,
        (rotationAmounts v).c2, (rotationAmounts v).d0, (rotationAmounts v).d1, (rotationAmounts v).d2],
      0 < n ∧ n < v.W) ∧
    bigSigma0 (0 : Word v) = 0 ∧ bigSigma1 (0 : Word v) = 0 ∧ smallSigma0 (0 : Word v) = 0 ∧
    smallSigma1 (0 : Word v) = 0 ∧
    bigSigma0 (BitVec.allOnes v.W : Word v) = BitVec.allOnes v.W ∧
    bigSigma1 (BitVec.allOnes v.W : Word v) = BitVec.allOnes v.W ∧
    smallSigma0 (BitVec.allOnes v.W : Word v) = shr (rotationAmounts v).c2 (BitVec.allOnes v.W) ∧
    smallSigma1 (BitVec.allOnes v.W : Word v) = shr (rotationAmounts v).d2 (BitVec.allOnes v.W)

/-- The schedule of an all-zero block is zero (rule R184, first corner case). -/
def Obligations.AllZeroBlockHasAZeroSchedule : Prop :=
  ∀ (v : Variant) (t : Nat), t < v.R → (schedule v (zeros v.B))[t]? = some 0

/-- Rule R175: the block parse is big-endian. -/
def Obligations.BlockWordsAreBigEndian : Prop :=
  ∀ (v : Variant) (blk : List Byte), blk.length = v.B →
    (parseBlock v blk).length = 16 ∧
    ∀ t, t < 16 → ∃ M : Word v, (parseBlock v blk)[t]? = some M ∧
      ∀ j, j < v.NB → blk[v.NB * t + j]? = some (M.extractLsb' (v.W - 8 - 8 * j) 8)

/-- Rule R170: `K_t` is the first `W` bits of the fractional part of the cube root of the prime `p_t`, computed as
`icbrt(p_t · 2^(3W)) mod 2^W`. -/
def Obligations.RoundConstantsAreCubeRootsOfPrimes : Prop :=
  ∀ v : Variant, (roundConstants v).length = v.R ∧
    ∀ t, t < v.R → ∃ p c : Nat, smallPrimes[t]? = some p ∧
      c ^ 3 ≤ p * 2 ^ (3 * v.W) ∧ p * 2 ^ (3 * v.W) < (c + 1) ^ 3 ∧
      (roundConstants v)[t]? = some (BitVec.ofNat v.W c)

/-- Rules R34 and R35: `S0` gives `H` these words. `IV[i]` is the first `W` bits of the fractional part of the square root
of the prime `p_i`, computed as `isqrt(p_i · 2^(2W)) mod 2^W`. -/
def Obligations.InitialHashWordsAreSquareRootsOfPrimes : Prop :=
  (Engine.s0 .sha256).H = #v[0x6a09e667, 0xbb67ae85, 0x3c6ef372, 0xa54ff53a, 0x510e527f, 0x9b05688c, 0x1f83d9ab,
    0x5be0cd19] ∧
  (Engine.s0 .sha512).H = #v[0x6a09e667f3bcc908, 0xbb67ae8584caa73b, 0x3c6ef372fe94f82b, 0xa54ff53a5f1d36f1,
    0x510e527fade682d1, 0x9b05688c2b3e6c1f, 0x1f83d9abfb41bd6b, 0x5be0cd19137e2179] ∧
  ∀ (v : Variant) (i : Fin 8), ∃ p r : Nat, smallPrimes[i.val]? = some p ∧
    r ^ 2 ≤ p * 2 ^ (2 * v.W) ∧ p * 2 ^ (2 * v.W) < (r + 1) ^ 2 ∧
    (Engine.s0 v).H[i.val] = BitVec.ofNat v.W r

/-- Rests on rule R15: `be_n` and `bytes_be_n` are inverse to each other. -/
def Obligations.BigEndianConversionsAreInverse : Prop :=
  (∀ n x : Nat, (bytesBe n x).length = n ∧ beNat (bytesBe n x) = x % 2 ^ (8 * n)) ∧
  (∀ s : List Byte, beNat s < 2 ^ (8 * s.length) ∧ bytesBe s.length (beNat s) = s) ∧
  (∀ s t : List Byte, beNat (s ++ t) = beNat s * 2 ^ (8 * t.length) + beNat t)
end

