-- ==== Sys2Proof/Laws/State.lean ====
section
/-! SUPPORT. One lemma for each field and each update of the state, so that no proof unfolds a record update. -/

namespace Sys2Proof.Machine

variable (s : State)

@[simp] theorem State.respond_variant (st value data) : (s.respond st value data).variant = s.variant := rfl
@[simp] theorem State.respond_engine (st value data) : (s.respond st value data).engine = s.engine := rfl
@[simp] theorem State.respond_ready (st value data) : (s.respond st value data).ready = s.ready := rfl
@[simp] theorem State.respond_inbox (st value data) : (s.respond st value data).inbox = s.inbox := rfl
@[simp] theorem State.respond_draws (st value data) : (s.respond st value data).draws = s.draws := rfl
@[simp] theorem State.respond_outbox (st value data) :
    (s.respond st value data).outbox = s.outbox ++ [{ rw := responseWord st value, dout := data }] := rfl

@[simp] theorem State.reject_variant (st) : (s.reject st).variant = s.variant := rfl
@[simp] theorem State.reject_engine (st) : (s.reject st).engine = s.engine := rfl
@[simp] theorem State.reject_ready (st) : (s.reject st).ready = s.ready := rfl
@[simp] theorem State.reject_inbox (st) : (s.reject st).inbox = s.inbox := rfl
@[simp] theorem State.reject_draws (st) : (s.reject st).draws = s.draws := rfl
@[simp] theorem State.reject_outbox (st) : (s.reject st).outbox = s.outbox ++ [errorResponse st] := rfl

@[simp] theorem State.setEngine_variant (e) : (s.setEngine e).variant = s.variant := rfl
@[simp] theorem State.setEngine_engine (e) : (s.setEngine e).engine = e := rfl
@[simp] theorem State.setEngine_ready (e) : (s.setEngine e).ready = s.ready := rfl
@[simp] theorem State.setEngine_inbox (e) : (s.setEngine e).inbox = s.inbox := rfl
@[simp] theorem State.setEngine_outbox (e) : (s.setEngine e).outbox = s.outbox := rfl
@[simp] theorem State.setEngine_draws (e) : (s.setEngine e).draws = s.draws := rfl

@[simp] theorem State.take_variant (rest) : (s.take rest).variant = s.variant := rfl
@[simp] theorem State.take_engine (rest) : (s.take rest).engine = s.engine := rfl
@[simp] theorem State.take_ready (rest) : (s.take rest).ready = s.ready := rfl
@[simp] theorem State.take_inbox (rest) : (s.take rest).inbox = rest := rfl
@[simp] theorem State.take_outbox (rest) : (s.take rest).outbox = s.outbox := rfl
@[simp] theorem State.take_draws (rest) : (s.take rest).draws = s.draws := rfl

@[simp] theorem State.present_variant (t) : (s.present t).variant = s.variant := rfl
@[simp] theorem State.present_engine (t) : (s.present t).engine = s.engine := rfl
@[simp] theorem State.present_ready (t) : (s.present t).ready = s.ready := rfl
@[simp] theorem State.present_inbox (t) : (s.present t).inbox = .command .idle t :: s.inbox := rfl
@[simp] theorem State.present_outbox (t) : (s.present t).outbox = s.outbox := rfl
@[simp] theorem State.present_draws (t) : (s.present t).draws = s.draws := rfl

@[simp] theorem hardReset_variant : (hardReset s).variant = s.variant := rfl
@[simp] theorem hardReset_engine : (hardReset s).engine = Engine.s0 s.variant := rfl
@[simp] theorem hardReset_ready : (hardReset s).ready = true := rfl
@[simp] theorem hardReset_inbox : (hardReset s).inbox = s.inbox := rfl
@[simp] theorem hardReset_outbox : (hardReset s).outbox = s.outbox := rfl
@[simp] theorem hardReset_draws : (hardReset s).draws = s.draws := rfl

@[simp] theorem powerUp_variant : (powerUp s).variant = s.variant := rfl
@[simp] theorem powerUp_engine : (powerUp s).engine = Engine.poweredUp s.variant s.draws := rfl
@[simp] theorem powerUp_ready : (powerUp s).ready = false := rfl
@[simp] theorem powerUp_inbox : (powerUp s).inbox = s.inbox := rfl
@[simp] theorem powerUp_outbox : (powerUp s).outbox = s.outbox := rfl
@[simp] theorem powerUp_draws : (powerUp s).draws = s.draws + 1 := rfl

variable {v : Variant} (e : Engine v)

@[simp] theorem Engine.setFinalized_H : e.setFinalized.H = e.H := rfl
@[simp] theorem Engine.setFinalized_buf : e.setFinalized.buf = e.buf := rfl
@[simp] theorem Engine.setFinalized_filled : e.setFinalized.filled = e.filled := rfl
@[simp] theorem Engine.setFinalized_length : e.setFinalized.length = e.length := rfl
@[simp] theorem Engine.setFinalized_phase : e.setFinalized.phase = .finalized := rfl

@[simp] theorem Engine.toS0_eq : e.toS0 = Engine.s0 v := rfl

@[simp] theorem Engine.s0_H : (Engine.s0 v).H = iv v := rfl
@[simp] theorem Engine.s0_buf : (Engine.s0 v).buf = [] := rfl
@[simp] theorem Engine.s0_filled : (Engine.s0 v).filled = 0 := rfl
@[simp] theorem Engine.s0_length : (Engine.s0 v).length = 0 := rfl
@[simp] theorem Engine.s0_phase : (Engine.s0 v).phase = .absorbing := rfl

@[simp] theorem absorb_phase (s : List Byte) : (absorb e s).phase = e.phase := rfl
@[simp] theorem absorb_length (s : List Byte) :
    (absorb e s).length = e.length + BitVec.ofNat v.L s.length := rfl

end Sys2Proof.Machine
end

