-- ==== Sys2Proof/Laws/Memory.lean ====
section
/-! SUPPORT. What the operations on `BUF` do: a read after a write, and the canonical form kept. -/

namespace Sys2Proof.Machine

theorem Memory.read_write_same (m : Memory) (a : Nat) (b : Byte) : (m.write a b).read a = some b := by
  induction m with
  | nil => simp [Memory.write, Memory.read]
  | cons c m ih =>
    obtain ⟨k, x⟩ := c
    simp only [Memory.write]
    split
    · simp [Memory.read]
    · split
      · simp [Memory.read]
      · rename_i h; simp [Memory.read, h, ih]

theorem Memory.read_write_other (m : Memory) {a a' : Nat} (b : Byte) (h : a' ≠ a) :
    (m.write a b).read a' = m.read a' := by
  induction m with
  | nil => simp [Memory.write, Memory.read, h]
  | cons c m ih =>
    obtain ⟨k, x⟩ := c
    simp only [Memory.write]
    split
    · simp [Memory.read, h]
    · split
      · rename_i hk; subst hk; simp [Memory.read, h]
      · simp [Memory.read, ih]

theorem Memory.wf_iff (n : Nat) (m : Memory) :
    m.wf n = true ↔ m.Pairwise (fun x y => x.1 < y.1) ∧ ∀ c ∈ m, c.1 < n := by
  simp [Memory.wf]

/-- A cell of a memory after a write is the written one or was there before. -/
theorem Memory.mem_write (m : Memory) {a : Nat} {b : Byte} {c : Host.Cell} (h : c ∈ m.write a b) :
    c = (a, b) ∨ c ∈ m := by
  induction m with
  | nil => simpa [Memory.write] using h
  | cons d m ih =>
    obtain ⟨k, x⟩ := d
    simp only [Memory.write] at h
    split at h
    · simpa using h
    · split at h
      · simp only [List.mem_cons] at h ⊢; tauto
      · simp only [List.mem_cons] at h ⊢
        rcases h with h | h
        · exact .inr (.inl h)
        · rcases ih h with h | h <;> tauto

theorem Memory.write_wf {n : Nat} {m : Memory} {a : Nat} (b : Byte) (ha : a < n) (hm : m.wf n = true) :
    (m.write a b).wf n = true := by
  rw [Memory.wf_iff] at *
  refine ⟨?_, fun c hc => ?_⟩
  · obtain ⟨hp, -⟩ := hm
    induction m with
    | nil => simp [Memory.write]
    | cons d m ih =>
      obtain ⟨k, x⟩ := d
      rw [List.pairwise_cons] at hp
      simp only [Memory.write]
      split
      · rename_i hak
        refine List.pairwise_cons.2 ⟨fun c hc => ?_, List.pairwise_cons.2 hp⟩
        rcases List.mem_cons.1 hc with rfl | hc
        · exact hak
        · exact hak.trans (hp.1 c hc)
      · split
        · rename_i hak; subst hak; exact List.pairwise_cons.2 hp
        · rename_i h1 h2
          refine List.pairwise_cons.2 ⟨fun c hc => ?_, ih hp.2⟩
          rcases Memory.mem_write m hc with rfl | hc
          · simp only; omega
          · exact hp.1 c hc
  · rcases Memory.mem_write m hc with rfl | hc
    · exact ha
    · exact hm.2 c hc

theorem memWrite_wf {n : Nat} {m : Memory} {j : Nat} {s : List Byte} (hj : j + s.length ≤ n) (hm : m.wf n = true) :
    (memWrite m j s).wf n = true := by
  induction s generalizing m j with
  | nil => exact hm
  | cons b s ih =>
    simp only [List.length_cons] at hj
    exact ih (by omega) (Memory.write_wf b (by omega) hm)

theorem Memory.stale_wf (n : Nat) : Memory.stale.wf n = true := by simp [Memory.stale, Memory.wf]

/-- `MemWrite` stores its bytes at `j, j+1, ...` and leaves every other index as it was. -/
theorem read_memWrite (m : Memory) (j : Nat) (s : List Byte) (a : Nat) :
    (memWrite m j s).read a = if j ≤ a ∧ a < j + s.length then s[a - j]? else m.read a := by
  induction s generalizing m j with
  | nil => simp [memWrite]
  | cons b s ih =>
    rw [memWrite, ih]
    rcases Nat.lt_trichotomy a j with h | rfl | h
    · rw [if_neg (by omega), if_neg (by omega), Memory.read_write_other m b (by omega)]
    · rw [if_neg (by omega), if_pos (by simp), Memory.read_write_same]; simp
    · have : a - j = (a - (j + 1)) + 1 := by omega
      simp only [List.length_cons]
      by_cases h2 : a < j + (s.length + 1)
      · rw [if_pos (by omega), if_pos (by omega), this]; simp
      · rw [if_neg (by omega), if_neg (by omega), Memory.read_write_other m b (by omega)]

theorem memWrite_append (m : Memory) (j : Nat) (s t : List Byte) :
    memWrite m j (s ++ t) = memWrite (memWrite m j s) (j + s.length) t := by
  induction s generalizing m j with
  | nil => rfl
  | cons b s ih => simp only [List.cons_append, memWrite, ih, List.length_cons]; congr 1; omega

@[simp] theorem memRead_length (m : Memory) (j n : Nat) : (memRead m j n).length = n := by simp [memRead]

/-- The buffer that holds the bytes `s` at the indices `0, 1, ...` and nothing else. -/
def cellsOf (s : List Byte) : Memory := (List.range s.length).zip s

@[simp] theorem cellsOf_keys (s : List Byte) : (cellsOf s).map Prod.fst = List.range s.length := by
  simp [cellsOf, List.map_fst_zip]

@[simp] theorem cellsOf_length (s : List Byte) : (cellsOf s).length = s.length := by simp [cellsOf]

/-- Writing at an index above every listed one appends the cell. -/
theorem Memory.write_above {m : Memory} {a : Nat} (b : Byte) (h : ∀ c ∈ m, c.1 < a) : m.write a b = m ++ [(a, b)] := by
  induction m with
  | nil => rfl
  | cons d m ih =>
    obtain ⟨k, x⟩ := d
    have hk : k < a := h (k, x) (by simp)
    simp only [Memory.write, List.cons_append]
    rw [if_neg (by omega), if_neg (by omega), ih fun c hc => h c (by simp [hc])]

theorem cellsOf_snoc (s : List Byte) (b : Byte) : (cellsOf s).write s.length b = cellsOf (s ++ [b]) := by
  rw [Memory.write_above]
  · simp [cellsOf, List.range_succ, List.zip_append]
  · intro c hc
    have : c.1 ∈ (cellsOf s).map Prod.fst := List.mem_map_of_mem hc
    simpa using this

theorem read_cellsOf (s : List Byte) (a : Nat) : (cellsOf s).read a = s[a]? := by
  induction s using List.reverseRecOn with
  | nil => rfl
  | append_singleton s b ih =>
    rw [← cellsOf_snoc]
    by_cases h : a = s.length
    · subst h; rw [Memory.read_write_same]; simp
    · rw [Memory.read_write_other _ _ h, ih]
      rcases Nat.lt_or_gt_of_ne h with h | h
      · rw [List.getElem?_append_left h]
      · rw [List.getElem?_eq_none (by omega), List.getElem?_eq_none (by simp; omega)]

theorem memRead_cellsOf (s : List Byte) : memRead (cellsOf s) 0 s.length = s := by
  apply List.ext_getElem?
  intro i
  by_cases h : i < s.length
  · simp [memRead, readByte, read_cellsOf, h]
  · simp [memRead, h]

/-- A buffer whose listed indices are `0 .. n−1` is the one that holds the bytes read there. -/
theorem eq_cellsOf {m : Memory} {n : Nat} (h : m.map Prod.fst = List.range n) : m = cellsOf (memRead m 0 n) := by
  have key : m = cellsOf (m.map Prod.snd) := by
    have hl : m.length = n := by simpa using congrArg List.length h
    rw [cellsOf, List.length_map, hl]
    exact List.zip_of_prod h rfl
  have hl : m.length = n := by simpa using congrArg List.length h
  have : memRead m 0 n = m.map Prod.snd := by
    have h2 := memRead_cellsOf (m.map Prod.snd)
    rw [← key] at h2
    simpa [hl] using h2
  rw [this, ← key]

theorem cellsOf_wf {n : Nat} {s : List Byte} (h : s.length ≤ n) : (cellsOf s).wf n = true := by
  rw [Memory.wf_iff]
  refine ⟨?_, fun c hc => ?_⟩
  · have := List.pairwise_lt_range (n := s.length)
    rw [← cellsOf_keys, List.pairwise_map] at this
    exact this
  · have : c.1 ∈ (cellsOf s).map Prod.fst := List.mem_map_of_mem hc
    simp at this; omega

end Sys2Proof.Machine
end

