-- ==== Sys2Proof/Laws/Absorb.lean ====
section
/-! SUPPORT. What the loop of `ABSORB` does, said once: it is the absorption of one byte after another, and from a buffer
that holds exactly its pending bytes it compresses the whole blocks of the pending bytes followed by the new ones. -/

namespace Sys2Proof.Machine

variable {v : Variant}

theorem Variant_B_pos (v : Variant) : 0 < v.B := by cases v <;> decide

theorem two_pow_FW (v : Variant) : 2 ^ v.FW = v.B := by cases v <;> rfl

theorem filled_lt (e : Engine v) : e.filled.toNat < v.B := by
  have := e.filled.isLt; rwa [two_pow_FW] at this

/-- One byte through the loop body. -/
def AbsorbLoop.byte (l : AbsorbLoop v) (b : Byte) : AbsorbLoop v := (l.copy [b]).drain

theorem AbsorbLoop.drain_f_lt {l : AbsorbLoop v} (h : l.f ≤ v.B) : l.drain.f < v.B := by
  rw [AbsorbLoop.drain]
  split
  · exact Variant_B_pos v
  · omega

theorem AbsorbLoop.byte_f_lt {l : AbsorbLoop v} (b : Byte) (h : l.f < v.B) : (l.byte b).f < v.B :=
  drain_f_lt h

theorem AbsorbLoop.foldl_byte_f_lt {l : AbsorbLoop v} (s : List Byte) (h : l.f < v.B) :
    (s.foldl AbsorbLoop.byte l).f < v.B := by
  induction s generalizing l with
  | nil => exact h
  | cons b s ih => exact ih (byte_f_lt b h)

theorem AbsorbLoop.copy_copy (l : AbsorbLoop v) (s t : List Byte) : (l.copy s).copy t = l.copy (s ++ t) := by
  simp only [AbsorbLoop.copy, memWrite_append, List.length_append]
  congr 1; omega

/-- A copy that does not run over the end of the buffer is the same as its bytes one after another. -/
theorem AbsorbLoop.drain_copy {l : AbsorbLoop v} {s : List Byte} (hs : s ≠ []) (h : l.f + s.length ≤ v.B) :
    (l.copy s).drain = s.foldl AbsorbLoop.byte l := by
  induction s generalizing l with
  | nil => exact absurd rfl hs
  | cons b s ih =>
    rcases s with _ | ⟨c, s⟩
    · rfl
    · simp only [List.length_cons] at h
      have hb : l.byte b = l.copy [b] := by
        rw [AbsorbLoop.byte, AbsorbLoop.drain, if_neg]
        simp only [AbsorbLoop.copy, List.length_cons, List.length_nil]; omega
      rw [List.foldl_cons, ← ih (by simp), hb, AbsorbLoop.copy_copy]
      · rfl
      · rw [hb]; simp only [AbsorbLoop.copy, List.length_cons, List.length_nil]; omega

/-- The loop of rule R132 is the absorption of one byte after another. -/
theorem AbsorbLoop.run_eq_foldl {n : Nat} {l : AbsorbLoop v} {s : List Byte} (hl : l.f < v.B) (hn : s.length ≤ n) :
    AbsorbLoop.run n l s = s.foldl AbsorbLoop.byte l := by
  induction n generalizing l s with
  | zero => rw [List.length_eq_zero_iff.1 (Nat.le_zero.1 hn)]; rfl
  | succ n ih =>
    rw [AbsorbLoop.run]
    by_cases hs : s = []
    · simp [hs]
    · have hpos : 0 < s.length := List.length_pos_iff.2 hs
      have hpass : l.pass s = (s.take (min (v.B - l.f) s.length)).foldl AbsorbLoop.byte l := by
        refine AbsorbLoop.drain_copy ?_ ?_
        · rw [← List.length_pos_iff, List.length_take]; omega
        · rw [List.length_take]; omega
      rw [if_neg (by simpa using hs), hpass, ih (foldl_byte_f_lt _ hl) (by rw [List.length_drop]; omega),
        ← List.foldl_append, List.take_append_drop]

/-- The call log is only written: the loop does the same whatever was logged before. -/
theorem AbsorbLoop.byte_log (l : AbsorbLoop v) (blks : List (List Byte)) (b : Byte) :
    ∃ blks', ({ l with blocks := blks } : AbsorbLoop v).byte b = { l.byte b with blocks := blks' } := by
  simp only [AbsorbLoop.byte, AbsorbLoop.drain]
  by_cases h : (l.copy [b]).f = v.B
  · rw [if_pos h, if_pos (by exact h)]; exact ⟨_, rfl⟩
  · rw [if_neg h, if_neg (by exact h)]; exact ⟨blks, rfl⟩

theorem AbsorbLoop.foldl_byte_log (s : List Byte) (l : AbsorbLoop v) (blks : List (List Byte)) :
    ∃ blks', s.foldl AbsorbLoop.byte { l with blocks := blks } =
      { s.foldl AbsorbLoop.byte l with blocks := blks' } := by
  induction s generalizing l blks with
  | nil => exact ⟨blks, rfl⟩
  | cons b s ih =>
    obtain ⟨blks', h⟩ := AbsorbLoop.byte_log l blks b
    rw [List.foldl_cons, h]; exact ih _ _

theorem AbsorbLoop.byte_f (l : AbsorbLoop v) (b : Byte) :
    (l.byte b).f = if l.f + 1 = v.B then 0 else l.f + 1 := by
  rw [AbsorbLoop.byte, AbsorbLoop.drain]
  by_cases h : l.f + 1 = v.B
  · rw [if_pos (by exact h), if_pos h]
  · rw [if_neg (by exact h), if_neg h]; rfl

theorem AbsorbLoop.byte_calls (l : AbsorbLoop v) (b : Byte) :
    (l.byte b).blocks.length = l.blocks.length + if l.f + 1 = v.B then 1 else 0 := by
  rw [AbsorbLoop.byte, AbsorbLoop.drain]
  by_cases h : l.f + 1 = v.B
  · rw [if_pos (by exact h), if_pos h]; simp [AbsorbLoop.copy]
  · rw [if_neg (by exact h), if_neg h]; rfl

/-- The fill count the loop leaves, and how often it calls `COMPRESS`, from any buffer contents. -/
theorem AbsorbLoop.foldl_byte_counts {l : AbsorbLoop v} (s : List Byte) (h : l.f < v.B) :
    (s.foldl AbsorbLoop.byte l).f = (l.f + s.length) % v.B ∧
    (s.foldl AbsorbLoop.byte l).blocks.length = l.blocks.length + (l.f + s.length) / v.B := by
  induction s generalizing l with
  | nil => simp [Nat.mod_eq_of_lt h, Nat.div_eq_of_lt h]
  | cons b s ih =>
    obtain ⟨h1, h2⟩ := ih (AbsorbLoop.byte_f_lt b h)
    rw [List.foldl_cons, h1, h2, AbsorbLoop.byte_f, AbsorbLoop.byte_calls]
    by_cases hw : l.f + 1 = v.B
    · have : l.f + (b :: s).length = s.length + v.B := by simp; omega
      rw [if_pos hw, if_pos hw, this, Nat.add_mod_right, Nat.add_div_right _ (Variant_B_pos v), Nat.zero_add]
      exact ⟨rfl, by omega⟩
    · have : l.f + (b :: s).length = l.f + 1 + s.length := by simp; omega
      rw [if_neg hw, if_neg hw, this]; exact ⟨rfl, by omega⟩

theorem absorbLoop_eq (e : Engine v) (s : List Byte) :
    absorbLoop e s = s.foldl AbsorbLoop.byte e.startAbsorb :=
  AbsorbLoop.run_eq_foldl (filled_lt e) (Nat.le_refl _)

theorem absorbLoop_f_lt (e : Engine v) (s : List Byte) : (absorbLoop e s).f < v.B := by
  rw [absorbLoop_eq]; exact AbsorbLoop.foldl_byte_f_lt s (filled_lt e)

theorem absorb_filled_toNat (e : Engine v) (s : List Byte) : (absorb e s).filled.toNat = (absorbLoop e s).f := by
  simp only [absorb, BitVec.toNat_ofNat, two_pow_FW]
  exact Nat.mod_eq_of_lt (absorbLoop_f_lt e s)

/-- The canonical form of the buffer is kept. -/
theorem AbsorbLoop.byte_wf {l : AbsorbLoop v} (b : Byte) (hf : l.f < v.B) (h : l.buf.wf v.B = true) :
    (l.byte b).buf.wf v.B = true := by
  have h1 : (l.copy [b]).buf.wf v.B = true := memWrite_wf (by simp; omega) h
  rw [AbsorbLoop.byte, AbsorbLoop.drain]
  split
  · exact Memory.stale_wf _
  · exact h1

theorem absorb_wf {e : Engine v} (s : List Byte) (h : e.buf.wf v.B = true) : (absorb e s).buf.wf v.B = true := by
  show (absorbLoop e s).buf.wf v.B = true
  rw [absorbLoop_eq]
  have hf : e.startAbsorb.f < v.B := filled_lt e
  have hb : e.startAbsorb.buf.wf v.B = true := h
  generalize e.startAbsorb = l at hf hb
  induction s generalizing l with
  | nil => exact hb
  | cons b s ih => exact ih _ (AbsorbLoop.byte_f_lt b hf) (AbsorbLoop.byte_wf b hf hb)

/-! The whole blocks of a byte sequence, and what is left over. -/

theorem div_mod_succ_wrap {n k : Nat} (hk : 0 < k) (h : n % k + 1 = k) :
    (n + 1) / k = n / k + 1 ∧ (n + 1) % k = 0 := by
  have hd := Nat.div_add_mod n k
  have : n + 1 = k * (n / k + 1) := by rw [Nat.mul_add, Nat.mul_one]; omega
  rw [this]
  exact ⟨Nat.mul_div_cancel_left _ hk, Nat.mul_mod_right _ _⟩

theorem div_mod_succ_stay {n k : Nat} (h : n % k + 1 < k) :
    (n + 1) / k = n / k ∧ (n + 1) % k = n % k + 1 := by
  have hk : 0 < k := by omega
  have hd := Nat.div_add_mod n k
  constructor
  · rw [Nat.div_eq_iff hk]; rw [Nat.mul_comm] at hd; omega
  · rw [Nat.add_mod, Nat.mod_eq_of_lt (by omega : 1 < k), Nat.mod_eq_of_lt h]

/-- The bytes after the last whole block. -/
def leftover (v : Variant) (s : List Byte) : List Byte := s.drop (v.B * (s.length / v.B))

@[simp] theorem leftover_length (v : Variant) (s : List Byte) : (leftover v s).length = s.length % v.B := by
  have := Nat.div_add_mod s.length v.B
  simp only [leftover, List.length_drop]; omega

theorem mul_div_le' (v : Variant) (s : List Byte) : v.B * (s.length / v.B) ≤ s.length := Nat.mul_div_le _ _

theorem blocksOf_snoc_stay {s : List Byte} (b : Byte) (h : s.length % v.B + 1 < v.B) :
    blocksOf v (s ++ [b]) = blocksOf v s ∧ leftover v (s ++ [b]) = leftover v s ++ [b] := by
  have hd := (div_mod_succ_stay h).1
  have hle := mul_div_le' v s
  constructor
  · simp only [blocksOf, List.length_append, List.length_singleton, hd]
    refine List.map_congr_left fun j hj => ?_
    have hj := List.mem_range.1 hj
    have h1 : v.B * (j + 1) ≤ v.B * (s.length / v.B) := Nat.mul_le_mul_left _ hj
    rw [Nat.mul_add, Nat.mul_one] at h1
    rw [List.drop_append_of_le_length (by omega), List.take_append_of_le_length (by rw [List.length_drop]; omega)]
  · simp only [leftover, List.length_append, List.length_singleton, hd]
    rw [List.drop_append_of_le_length hle]

theorem blocksOf_snoc_wrap {s : List Byte} (b : Byte) (h : s.length % v.B + 1 = v.B) :
    blocksOf v (s ++ [b]) = blocksOf v s ++ [leftover v s ++ [b]] ∧ leftover v (s ++ [b]) = [] := by
  obtain ⟨hd, hm⟩ := div_mod_succ_wrap (Variant_B_pos v) h
  have hle := mul_div_le' v s
  constructor
  · simp only [blocksOf, List.length_append, List.length_singleton, hd, List.range_succ, List.map_append,
      List.map_cons, List.map_nil]
    congr 1
    · refine List.map_congr_left fun j hj => ?_
      have hj := List.mem_range.1 hj
      have h1 : v.B * (j + 1) ≤ v.B * (s.length / v.B) := Nat.mul_le_mul_left _ hj
      rw [Nat.mul_add, Nat.mul_one] at h1
      rw [List.drop_append_of_le_length (by omega), List.take_append_of_le_length (by rw [List.length_drop]; omega)]
    · rw [List.drop_append_of_le_length hle, List.take_of_length_le]
      · rfl
      · have := leftover_length v s
        simp only [leftover] at this
        rw [List.length_append, this, List.length_singleton]; omega
  · rw [← List.length_eq_zero_iff, leftover_length]; simpa using hm

@[simp] theorem blocksOf_length (v : Variant) (s : List Byte) : (blocksOf v s).length = s.length / v.B := by
  simp [blocksOf]

theorem blocksOf_of_lt {s : List Byte} (h : s.length < v.B) : blocksOf v s = [] := by
  simp [blocksOf, Nat.div_eq_of_lt h]

theorem leftover_of_lt {s : List Byte} (h : s.length < v.B) : leftover v s = s := by
  simp [leftover, Nat.div_eq_of_lt h]

theorem compressStar_append (H : Vector (Word v) 8) (xs ys : List (List Byte)) :
    compressStar H (xs ++ ys) = compressStar (compressStar H xs) ys := List.foldl_append

theorem blocksOf_append_whole {x y : List Byte} (h : x.length % v.B = 0) :
    blocksOf v (x ++ y) = blocksOf v x ++ blocksOf v y := by
  have hB := Variant_B_pos v
  have hx : x.length = v.B * (x.length / v.B) := by have := Nat.div_add_mod x.length v.B; omega
  generalize hk : x.length / v.B = k at hx
  simp only [blocksOf, List.length_append]
  rw [hk, hx, Nat.add_comm, Nat.add_mul_div_left _ _ hB, Nat.add_comm (y.length / v.B) k, List.range_add,
    List.map_append, List.map_map]
  congr 1
  · refine List.map_congr_left fun j hj => ?_
    have hj := List.mem_range.1 hj
    have h1 : v.B * (j + 1) ≤ v.B * k := Nat.mul_le_mul_left _ hj
    rw [Nat.mul_add, Nat.mul_one] at h1
    rw [List.drop_append_of_le_length (by omega), List.take_append_of_le_length (by rw [List.length_drop]; omega)]
  · refine List.map_congr_left fun j _ => ?_
    simp only [Function.comp]
    rw [Nat.mul_add, ← hx, ← List.drop_drop, List.drop_left]

/-- The loop state that holds the bytes of `q` after its last whole block, with its whole blocks compressed. -/
def AbsorbLoop.after (H : Vector (Word v) 8) (blks : List (List Byte)) (q : List Byte) : AbsorbLoop v :=
  { H := compressStar H (blocksOf v q)
    buf := cellsOf (leftover v q)
    f := q.length % v.B
    blocks := blks ++ blocksOf v q }

theorem AbsorbLoop.after_byte (H : Vector (Word v) 8) (blks : List (List Byte)) (q : List Byte) (b : Byte) :
    (AbsorbLoop.after H blks q).byte b = AbsorbLoop.after H blks (q ++ [b]) := by
  have hlt := Nat.mod_lt q.length (Variant_B_pos v)
  have hcopy : (AbsorbLoop.after H blks q).copy [b]
      = { AbsorbLoop.after H blks q with buf := cellsOf (leftover v q ++ [b]), f := q.length % v.B + 1 } := by
    have hw := cellsOf_snoc (leftover v q) b
    rw [leftover_length] at hw
    simp [AbsorbLoop.copy, AbsorbLoop.after, memWrite, hw]
  rw [AbsorbLoop.byte, hcopy, AbsorbLoop.drain]
  rcases Nat.lt_or_eq_of_le (Nat.succ_le_of_lt hlt) with h | h
  · obtain ⟨hb, hl⟩ := blocksOf_snoc_stay b h
    rw [if_neg (by simp only; omega)]
    simp only [AbsorbLoop.after, hb, hl]
    congr 1
    rw [List.length_append, List.length_singleton, (div_mod_succ_stay h).2]
  · have h : q.length % v.B + 1 = v.B := h
    obtain ⟨hb, hl⟩ := blocksOf_snoc_wrap b h
    have hblk : memRead (cellsOf (leftover v q ++ [b])) 0 v.B = leftover v q ++ [b] := by
      have := memRead_cellsOf (leftover v q ++ [b])
      rwa [List.length_append, leftover_length, List.length_singleton, h] at this
    rw [if_pos h]
    simp only [AbsorbLoop.after, hb, hl, hblk, compressStar_append]
    congr 1
    · rw [List.length_append, List.length_singleton, (div_mod_succ_wrap (Variant_B_pos v) h).2]
    · simp

/-- From a buffer that holds exactly its pending bytes `p`, absorbing `s` leaves the whole blocks of `p ++ s` compressed, in
order, and the rest of them buffered. -/
theorem AbsorbLoop.foldl_byte_after (H : Vector (Word v) 8) (blks : List (List Byte)) (p s : List Byte) :
    s.foldl AbsorbLoop.byte (AbsorbLoop.after H blks p) = AbsorbLoop.after H blks (p ++ s) := by
  induction s generalizing p with
  | nil => simp
  | cons b s ih => rw [List.foldl_cons, after_byte, ih]; simp

@[simp] theorem Engine.pending_length (e : Engine v) : e.pending.length = e.filled.toNat := memRead_length _ _ _

theorem Engine.startAbsorb_eq {e : Engine v} (h : e.buf.map Prod.fst = List.range e.filled.toNat) :
    e.startAbsorb = AbsorbLoop.after e.H [] e.pending := by
  have hlt : e.pending.length < v.B := by rw [Engine.pending_length]; exact filled_lt e
  have hb : e.buf = cellsOf e.pending := eq_cellsOf h
  simp only [Engine.startAbsorb, AbsorbLoop.after, blocksOf_of_lt hlt, leftover_of_lt hlt, ← hb]
  simp [compressStar, Nat.mod_eq_of_lt (filled_lt e)]

/-- Everything the loop of `ABSORB` leaves, from a buffer that holds exactly its pending bytes. -/
theorem absorbLoop_after {e : Engine v} (h : e.buf.map Prod.fst = List.range e.filled.toNat) (s : List Byte) :
    absorbLoop e s = AbsorbLoop.after e.H [] (e.pending ++ s) := by
  rw [absorbLoop_eq, Engine.startAbsorb_eq h, AbsorbLoop.foldl_byte_after]

end Sys2Proof.Machine
end

