-- ==== Sys2Proof/Laws/Compress.lean ====
section
/-! SUPPORT. Small lemmas about conversions, the padding counts and the schedule. -/

namespace Sys2Proof.Machine

variable {v : Variant}

theorem bitLength_toNat (x : BitVec v.L) : (bitLength x).toNat = (8 * x.toNat) % 2 ^ v.L := by
  simp [bitLength, Nat.shiftLeft_eq, Nat.mul_comm]

/-- The zero count of rule R224 after the `0x80` byte is the one of rule R228 at entry. -/
theorem zeroCount_succ {f : Nat} (hf : f < v.B) :
    zeroCount v ((f + 1) % v.B) = (((v.B : Int) - v.Lf - 1 - f) % v.B).toNat := by
  cases v <;> simp only [zeroCount, Variant.B, Variant.Lf] at * <;> omega

/-- Only the count modulo `B` matters to the zero count. -/
theorem zeroCount_mod (n : Nat) :
    (((v.B : Int) - v.Lf - 1 - (n % v.B : Nat)) % v.B).toNat = (((v.B : Int) - v.Lf - 1 - n) % v.B).toNat := by
  cases v <;> simp only [Variant.B, Variant.Lf] at * <;> omega

theorem padding_length (n bl : Nat) :
    (padding v n bl).length = 1 + (((v.B : Int) - v.Lf - 1 - n) % v.B).toNat + v.Lf := by
  simp [padding, bytesBe, zeros]; omega

/-- Extending a schedule keeps the words it has. -/
theorem extendSchedule_prefix (n : Nat) (ws : List (Word v)) (t : Nat) (h : t < ws.length) :
    (extendSchedule n ws)[t]? = ws[t]? := by
  induction n generalizing ws with
  | zero => rfl
  | succ n ih => rw [extendSchedule, ih _ (by simp; omega), List.getElem?_append_left h]

theorem extendSchedule_length (n : Nat) (ws : List (Word v)) : (extendSchedule n ws).length = ws.length + n := by
  induction n generalizing ws with
  | zero => rfl
  | succ n ih => rw [extendSchedule, ih]; simp; omega

end Sys2Proof.Machine
end

