-- ==== Sys2Proof/Laws/Step.lean ====
section
/-! SUPPORT. Everything a command, a transaction and a step can do, said once. -/

namespace Sys2Proof.Machine

theorem execReset_eq (s : State) :
    execReset s = .next { s with engine := Engine.s0 s.variant, outbox := s.outbox ++ [okResponse] } := rfl

theorem execQsize_eq (s : State) :
    execQsize s = .next { s with
      outbox := s.outbox ++ [{ rw := responseWord .ok (BitVec.ofNat 24 s.variant.D), dout := [] }] } := rfl

theorem execUpdate_absorbing {s : State} (h : s.engine.phase = .absorbing) (p : List Byte) :
    execUpdate p s = .next { s with engine := absorb s.engine p, outbox := s.outbox ++ [okResponse] } := by
  simp only [execUpdate, h]; rfl

theorem execUpdate_finalized {s : State} (h : s.engine.phase = .finalized) (p : List Byte) :
    execUpdate p s = .next { s with outbox := s.outbox ++ [errorResponse .eFinalized] } := by
  simp only [execUpdate, h]; rfl

theorem execFinalize_absorbing {s : State} (h : s.engine.phase = .absorbing) :
    execFinalize s = .next { s with
      engine := (padEngine s.engine).setFinalized
      outbox := s.outbox ++ [{ rw := responseWord .ok 0, dout := serialize (padEngine s.engine).H }] } := by
  simp only [execFinalize, h]; rfl

theorem execFinalize_finalized {s : State} (h : s.engine.phase = .finalized) :
    execFinalize s = .next { s with outbox := s.outbox ++ [errorResponse .eFinalized] } := by
  simp only [execFinalize, h]; rfl

/-- Every command answers a next state: it changes at most the engine, as its rule says, and gives one response. -/
theorem exec_cases (i : Instr) (s : State) :
    ∃ (e : Engine s.variant) (r : Response),
      exec i s = .next { s with engine := e, outbox := s.outbox ++ [r] } ∧
      ((i = .reset ∧ e = Engine.s0 s.variant ∧ r = okResponse) ∨
       (∃ p, i = .update p ∧ s.engine.phase = .absorbing ∧ e = absorb s.engine p ∧ r = okResponse) ∨
       (i = .finalize ∧ s.engine.phase = .absorbing ∧ e = (padEngine s.engine).setFinalized ∧
          r = { rw := responseWord .ok 0, dout := serialize (padEngine s.engine).H }) ∨
       (i = .qsize ∧ e = s.engine ∧ r = { rw := responseWord .ok (BitVec.ofNat 24 s.variant.D), dout := [] }) ∨
       (((∃ p, i = .update p) ∨ i = .finalize) ∧ s.engine.phase = .finalized ∧ e = s.engine ∧
          r = errorResponse .eFinalized)) := by
  cases i with
  | reset => exact ⟨_, _, execReset_eq s, .inl ⟨rfl, rfl, rfl⟩⟩
  | qsize => exact ⟨_, _, execQsize_eq s, .inr (.inr (.inr (.inl ⟨rfl, rfl, rfl⟩)))⟩
  | update p =>
    cases h : s.engine.phase with
    | absorbing => exact ⟨_, _, execUpdate_absorbing h p, .inr (.inl ⟨p, rfl, rfl, rfl, rfl⟩)⟩
    | finalized =>
      exact ⟨_, _, execUpdate_finalized h p, .inr (.inr (.inr (.inr ⟨.inl ⟨p, rfl⟩, rfl, rfl, rfl⟩)))⟩
  | finalize =>
    cases h : s.engine.phase with
    | absorbing => exact ⟨_, _, execFinalize_absorbing h, .inr (.inr (.inl ⟨rfl, rfl, rfl, rfl⟩))⟩
    | finalized =>
      exact ⟨_, _, execFinalize_finalized h, .inr (.inr (.inr (.inr ⟨.inr rfl, rfl, rfl, rfl⟩)))⟩

theorem transact_ok {s : State} {t : Transaction} {i : Instr} (hr : s.ready = true) (hw : t.wf = true)
    (hd : decode t = .ok i) : transact t s = exec i s := by
  simp [transact, hr, hw, hd]

theorem transact_illegal {s : State} {t : Transaction} {err : DecodeError} (hr : s.ready = true) (hw : t.wf = true)
    (hd : decode t = .error err) :
    transact t s = .next { s with outbox := s.outbox ++ [errorResponse .eIllegal] } := by
  rw [transact, if_neg (by simp [hr]), if_neg (by simp [hw]), hd]; rfl

theorem transact_beforeReset {s : State} (t : Transaction) (hr : s.ready = false) :
    transact t s = .refused .commandBeforeReset := by
  simp [transact, hr]

theorem transact_malformed {s : State} {t : Transaction} (hr : s.ready = true) (hw : t.wf = false) :
    transact t s = .refused .malformedPayload := by
  simp [transact, hr, hw]

/-- Where a transaction gives a next state: the instance was ready, the payload had `N` bytes, and either the decoded command
ran or the word was illegal and only the error response was given. -/
theorem transact_next {s s' : State} {t : Transaction} (h : transact t s = .next s') :
    s.ready = true ∧ t.wf = true ∧
      ((∃ i, decode t = .ok i ∧ exec i s = .next s') ∨
       (∃ err, decode t = .error err ∧ s' = { s with outbox := s.outbox ++ [errorResponse .eIllegal] })) := by
  have hr : s.ready = true := by
    by_contra hr
    rw [transact_beforeReset t (by simpa using hr)] at h; cases h
  have hw : t.wf = true := by
    by_contra hw
    rw [transact_malformed hr (by simpa using hw)] at h; cases h
  refine ⟨hr, hw, ?_⟩
  cases hd : decode t with
  | ok i => exact .inl ⟨i, rfl, by rw [← h, transact_ok hr hw hd]⟩
  | error err =>
    rw [transact_illegal hr hw hd] at h
    cases h
    exact .inr ⟨err, rfl, rfl⟩

theorem step_idle {s : State} (h : s.inbox = []) : step s = .next s := by simp [step, h]

theorem step_event {s : State} {ev : HostEvent} {rest : List HostEvent} (h : s.inbox = ev :: rest) :
    step s = handle ev (s.take rest) := by simp [step, h]

theorem step_command {s : State} {t : Transaction} {rest : List HostEvent} (h : s.inbox = .command .idle t :: rest) :
    step s = transact t (s.take rest) := by rw [step_event h]; rfl

/-- Everything the step of a presented command does when it gives a next state. -/
theorem command_next {s s' : State} {t : Transaction} {rest : List HostEvent}
    (hin : s.inbox = .command .idle t :: rest) (h : step s = .next s') :
    ∃ (e : Engine s.variant) (r : Response),
      s' = { s with engine := e, inbox := rest, outbox := s.outbox ++ [r] } ∧
      ((decode t = .ok .reset ∧ e = Engine.s0 s.variant ∧ r = okResponse) ∨
       (∃ p, decode t = .ok (.update p) ∧ s.engine.phase = .absorbing ∧ e = absorb s.engine p ∧ r = okResponse) ∨
       (decode t = .ok .finalize ∧ s.engine.phase = .absorbing ∧ e = (padEngine s.engine).setFinalized ∧
          r = { rw := responseWord .ok 0, dout := serialize (padEngine s.engine).H }) ∨
       (decode t = .ok .qsize ∧ e = s.engine ∧
          r = { rw := responseWord .ok (BitVec.ofNat 24 s.variant.D), dout := [] }) ∨
       (((∃ p, decode t = .ok (.update p)) ∨ decode t = .ok .finalize) ∧ s.engine.phase = .finalized ∧
          e = s.engine ∧ r = errorResponse .eFinalized) ∨
       ((∃ err, decode t = .error err) ∧ e = s.engine ∧ r = errorResponse .eIllegal)) := by
  rw [step_command hin] at h
  obtain ⟨hr, hw, ⟨i, hd, hx⟩ | ⟨err, hd, rfl⟩⟩ := transact_next h
  · obtain ⟨e, r, he, hc⟩ := exec_cases i (s.take rest)
    rw [hx] at he
    cases he
    refine ⟨e, r, rfl, ?_⟩
    rw [hd]
    rcases hc with ⟨rfl, h1, h2⟩ | ⟨p, rfl, h1, h2, h3⟩ | ⟨rfl, h1, h2, h3⟩ | ⟨rfl, h1, h2⟩ | ⟨hi, h1, h2, h3⟩
    · exact .inl ⟨rfl, h1, h2⟩
    · exact .inr (.inl ⟨p, rfl, h1, h2, h3⟩)
    · exact .inr (.inr (.inl ⟨rfl, h1, h2, h3⟩))
    · exact .inr (.inr (.inr (.inl ⟨rfl, h1, h2⟩)))
    · refine .inr (.inr (.inr (.inr (.inl ⟨?_, h1, h2, h3⟩))))
      rcases hi with ⟨p, rfl⟩ | rfl
      · exact .inl ⟨p, rfl⟩
      · exact .inr rfl
  · exact ⟨s.engine, _, rfl, .inr (.inr (.inr (.inr (.inr ⟨⟨err, hd⟩, rfl, rfl⟩))))⟩

/-- Everything a step can do when it gives a next state. -/
theorem step_next {s s' : State} (h : step s = .next s') :
    (s.inbox = [] ∧ s' = s) ∨
    (∃ t rest, s.inbox = .command .idle t :: rest ∧ transact t (s.take rest) = .next s') ∨
    (∃ rest, s.inbox = .hardReset .idle :: rest ∧ s' = hardReset (s.take rest)) ∨
    (∃ rest, s.inbox = .powerCycle :: rest ∧ s' = powerUp (s.take rest)) := by
  rcases hin : s.inbox with _ | ⟨ev, rest⟩
  · rw [step_idle hin] at h; cases h; exact .inl ⟨rfl, rfl⟩
  · rw [step_event hin] at h
    rcases ev with ⟨_ | _, t⟩ | ⟨_ | _⟩ | _
    · exact .inr (.inl ⟨t, rest, rfl, h⟩)
    · cases h
    · cases h; exact .inr (.inr (.inl ⟨rest, rfl, rfl⟩))
    · cases h
    · cases h; exact .inr (.inr (.inr ⟨rest, rfl, rfl⟩))

end Sys2Proof.Machine
end

