-- ==== Sys2Proof/Laws/Encoding.lean ====
section
/-! SUPPORT. The fields of an encoded command word, and the word built from its fields. -/

namespace Sys2Proof

theorem opField_commandWord (n : BitVec 24) (op : BitVec 4) : opField (commandWord n op) = op := by
  apply BitVec.eq_of_getLsbD_eq
  intro i hi
  simp only [opField, commandWord, BitVec.getLsbD_extractLsb', BitVec.getLsbD_append, hi, Nat.zero_add, decide_true,
    Bool.true_and, if_true]

theorem rsvField_commandWord (n : BitVec 24) (op : BitVec 4) : rsvField (commandWord n op) = 0 := by
  apply BitVec.eq_of_getLsbD_eq
  intro i hi
  have h1 : ¬ 4 + i < 4 := by omega
  simp only [rsvField, commandWord, BitVec.getLsbD_extractLsb', BitVec.getLsbD_append, hi, h1, decide_true,
    Bool.true_and, if_false, if_true, Nat.add_sub_cancel_left]

theorem nField_commandWord (n : BitVec 24) (op : BitVec 4) : nField (commandWord n op) = n := by
  apply BitVec.eq_of_getLsbD_eq
  intro i hi
  have h1 : ¬ 8 + i < 4 := by omega
  have h2 : ¬ 8 + i - 4 < 4 := by omega
  simp only [nField, commandWord, BitVec.getLsbD_extractLsb', BitVec.getLsbD_append, hi, h1, h2, decide_true,
    Bool.true_and, if_false]
  congr 1
  omega

/-- A command word is made of its three fields. -/
theorem eq_fields (cw : BitVec 32) : cw = nField cw ++ rsvField cw ++ opField cw := by
  apply BitVec.eq_of_getLsbD_eq
  intro i hi
  simp only [nField, rsvField, opField, BitVec.getLsbD_append, BitVec.getLsbD_extractLsb']
  by_cases h1 : i < 4
  · simp [h1]
  · by_cases h2 : i - 4 < 4
    · simp only [h1, h2, if_false, if_true, decide_true, Bool.true_and]; congr 1; omega
    · have h3 : i - 4 - 4 < 24 := by omega
      simp only [h1, h2, h3, if_false, decide_true, Bool.true_and]
      congr 1; omega

theorem commandWord_fields {cw : BitVec 32} (h : rsvField cw = 0) : commandWord (nField cw) (opField cw) = cw := by
  rw [commandWord, ← h]; exact (eq_fields cw).symm

theorem commandWord_toNat (n : BitVec 24) (op : BitVec 4) : (commandWord n op).toNat = n.toNat * 256 + op.toNat := by
  have h0 : (0 : BitVec 4).toNat = 0 := rfl
  simp only [commandWord, BitVec.toNat_append]
  rw [h0, Nat.or_zero, ← Nat.shiftLeft_add_eq_or_of_lt op.isLt]
  simp [Nat.shiftLeft_eq]; ring

theorem wf_iff_length (t : Machine.Transaction) : t.wf = true ↔ t.payload.length = (nField t.cw).toNat := by
  simp [Machine.Transaction.wf, nField]

/-- The decoder as one chain of conditions on the three fields. -/
theorem decode_eq (t : Machine.Transaction) : decode t =
    if rsvField t.cw ≠ 0 then .error .reservedField
    else if opField t.cw = 0x1 then (if nField t.cw = 0 then .ok .reset else .error .operandCount)
    else if opField t.cw = 0x2 then .ok (.update t.payload)
    else if opField t.cw = 0x3 then (if nField t.cw = 0 then .ok .finalize else .error .operandCount)
    else if opField t.cw = 0x4 then (if nField t.cw = 0 then .ok .qsize else .error .operandCount)
    else .error .reservedOp := rfl

/-- What the fields of a word that decodes are. -/
theorem decode_ok {t : Machine.Transaction} {i : Instr} (h : decode t = .ok i) :
    rsvField t.cw = 0 ∧
      ((opField t.cw = 1 ∧ nField t.cw = 0 ∧ i = .reset) ∨ (opField t.cw = 2 ∧ i = .update t.payload) ∨
       (opField t.cw = 3 ∧ nField t.cw = 0 ∧ i = .finalize) ∨ (opField t.cw = 4 ∧ nField t.cw = 0 ∧ i = .qsize)) := by
  rw [decode_eq] at h
  split_ifs at h <;> simp_all

end Sys2Proof
end

