-- ==== Sys2Proof/Laws/PerInstr.lean ====
section
/-! SUPPORT. What holds of every command as syntax, one lemma for each constructor. -/

namespace Sys2Proof.Laws.EncodedFields

/-- The transaction of a well-formed command carries exactly the payload bytes its word says (rule R103), and its reserved
field is zero (rule R106). -/
def Statement (i : Instr) : Prop :=
  i.wf = true → (encode i).wf = true ∧ rsvField (encode i).cw = 0

theorem noOperand_wf (op : BitVec 4) : Machine.Transaction.wf { cw := commandWord 0 op, payload := [] } = true := by
  have h : (commandWord 0 op).extractLsb' 8 24 = 0 := nField_commandWord 0 op
  simp only [Machine.Transaction.wf, h]; rfl

theorem reset : Statement .reset := fun _ => ⟨noOperand_wf _, rsvField_commandWord _ _⟩

theorem update (payload : List Byte) : Statement (.update payload) := by
  intro h
  refine ⟨?_, rsvField_commandWord _ _⟩
  have hn : (encode (.update payload)).cw.extractLsb' 8 24 = BitVec.ofNat 24 payload.length := nField_commandWord _ _
  have hlt : payload.length < 2 ^ 24 := by simpa [Instr.wf] using h
  simp only [Machine.Transaction.wf, hn, BitVec.toNat_ofNat, Nat.mod_eq_of_lt hlt]
  simp [encode]

theorem finalize : Statement .finalize := fun _ => ⟨noOperand_wf _, rsvField_commandWord _ _⟩

theorem qsize : Statement .qsize := fun _ => ⟨noOperand_wf _, rsvField_commandWord _ _⟩

end Sys2Proof.Laws.EncodedFields
end

