-- ==== Sys2Proof/Laws/Response.lean ====
section
/-! SUPPORT. The fields of a response word (30_encoding.md rule R109). -/

namespace Sys2Proof.Machine

theorem responseWord_status (st : Status) (value : BitVec 24) : (responseWord st value).extractLsb' 0 4 = st.code := by
  apply BitVec.eq_of_getLsbD_eq
  intro i hi
  have h1 : i < 8 := by omega
  have h2 : i < 32 := by omega
  simp [responseWord, hi, h1, h2]

theorem responseWord_zero (st : Status) (value : BitVec 24) : (responseWord st value).extractLsb' 4 4 = 0 := by
  apply BitVec.eq_of_getLsbD_eq
  intro i hi
  have h1 : 4 + i < 8 := by omega
  simp [responseWord, hi, h1]

theorem responseWord_value (st : Status) (value : BitVec 24) : (responseWord st value).extractLsb' 8 24 = value := by
  apply BitVec.eq_of_getLsbD_eq
  intro i hi
  have h1 : 8 + i < 32 := by omega
  have h2 : st.code.getLsbD (8 + i) = false := BitVec.getLsbD_of_ge _ _ (by omega)
  simp [responseWord, hi, h1, h2]

theorem okResponse_eq : okResponse = { rw := 0x00000000, dout := [] } := by decide

theorem errorResponse_eIllegal : errorResponse .eIllegal = { rw := 0x00000001, dout := [] } := by decide

theorem errorResponse_eFinalized : errorResponse .eFinalized = { rw := 0x00000002, dout := [] } := by decide

end Sys2Proof.Machine
end

