-- ==== Sys2Proof/Laws/Run.lean ====
section
/-! SUPPORT. Unrolling a run of the host's interface by one step, and what an event does not look at. -/

namespace Sys2Proof.Machine

theorem run_succ (M : Host.Core) (k : Nat) (s : M.State) :
    M.run (k + 1) s = match M.step s with
      | .next s' => M.run k s'
      | .fault r => .fault r
      | .refused r => .refused r := rfl

theorem run_zero (s : State) : Host.Core.run Sys2Proof.core 0 s = .next s := rfl

theorem run_next {s s' : State} (k : Nat) (h : step s = .next s') :
    Host.Core.run Sys2Proof.core (k + 1) s = Host.Core.run Sys2Proof.core k s' := by
  refine (run_succ Sys2Proof.core k s).trans ?_
  rw [show Sys2Proof.core.step s = .next s' from h]

theorem run_refused {s : State} {r : Refusal} (k : Nat) (h : step s = .refused r) :
    Host.Core.run Sys2Proof.core (k + 1) s = .refused r := by
  refine (run_succ Sys2Proof.core k s).trans ?_
  rw [show Sys2Proof.core.step s = .refused r from h]

/-- A run whose steps all give a next state passes through a next state first. -/
theorem run_next_inv {s t : State} {k : Nat} (h : Host.Core.run Sys2Proof.core (k + 1) s = .next t) :
    ∃ s', step s = .next s' ∧ Host.Core.run Sys2Proof.core k s' = .next t := by
  cases hs : step s with
  | next s' => exact ⟨s', rfl, by rw [← run_next k hs, h]⟩
  | fault r => cases r
  | refused r => rw [run_refused k hs] at h; cases h

/-- An event looks neither at what is presented after it nor at the responses given before it: it keeps the first and adds to
the second. -/
theorem handle_frame {ev : HostEvent} {s t : State} (h : handle ev s = .next t) :
    t.inbox = s.inbox ∧ ∃ given, t.outbox = s.outbox ++ given ∧
      ∀ (inbox : List HostEvent) (outbox : List Response),
        handle ev { s with inbox := inbox, outbox := outbox } =
          .next { t with inbox := inbox, outbox := outbox ++ given } := by
  rcases ev with ⟨_ | _, tr⟩ | ⟨_ | _⟩ | _
  · have h : transact tr s = .next t := h
    obtain ⟨hr, hw, ⟨i, hd, hx⟩ | ⟨err, hd, rfl⟩⟩ := transact_next h
    · have key : t.inbox = s.inbox ∧ ∃ given, t.outbox = s.outbox ++ given ∧
          ∀ (inbox : List HostEvent) (outbox : List Response),
            exec i { s with inbox := inbox, outbox := outbox } =
              .next { t with inbox := inbox, outbox := outbox ++ given } := by
        cases i with
        | reset => cases hx; exact ⟨rfl, _, rfl, fun _ _ => rfl⟩
        | qsize => cases hx; exact ⟨rfl, _, rfl, fun _ _ => rfl⟩
        | update p =>
          cases hp : s.engine.phase with
          | absorbing =>
            cases (execUpdate_absorbing hp p).symm.trans hx
            exact ⟨rfl, _, rfl, fun ib ob => execUpdate_absorbing (s := { s with inbox := ib, outbox := ob }) hp p⟩
          | finalized =>
            cases (execUpdate_finalized hp p).symm.trans hx
            exact ⟨rfl, _, rfl, fun ib ob => execUpdate_finalized (s := { s with inbox := ib, outbox := ob }) hp p⟩
        | finalize =>
          cases hp : s.engine.phase with
          | absorbing =>
            cases (execFinalize_absorbing hp).symm.trans hx
            exact ⟨rfl, _, rfl, fun ib ob => execFinalize_absorbing (s := { s with inbox := ib, outbox := ob }) hp⟩
          | finalized =>
            cases (execFinalize_finalized hp).symm.trans hx
            exact ⟨rfl, _, rfl, fun ib ob => execFinalize_finalized (s := { s with inbox := ib, outbox := ob }) hp⟩
      obtain ⟨h1, given, h2, h3⟩ := key
      exact ⟨h1, given, h2, fun ib ob =>
        (transact_ok (s := { s with inbox := ib, outbox := ob }) hr hw hd).trans (h3 ib ob)⟩
    · exact ⟨rfl, _, rfl, fun ib ob => transact_illegal (s := { s with inbox := ib, outbox := ob }) hr hw hd⟩
  · cases h
  · cases h; exact ⟨rfl, [], by simp, fun _ _ => by simp [handle, hardReset, State.setEngine]⟩
  · cases h
  · cases h; exact ⟨rfl, [], by simp, fun _ _ => by simp [handle, powerUp, State.setEngine]⟩

end Sys2Proof.Machine
end

