-- ==== Sys2Proof/Tests/Slice0.lean ====
section
/-! SUPPORT. Tests. Every expected value is the spec's own (95_test_vectors.md, or the worked examples and tables of the
section files), named beside it. The theorems `witness_…` show states and operands that meet the hypotheses of the
statement they name, at the boundary values of its clauses. -/

namespace Sys2Proof.Tests

open Sys2Proof Sys2Proof.Machine

/-! Helpers. -/

/-- The next state of an outcome, if it is one. -/
def nextOf {σ φ ρ : Type} : Host.Outcome σ φ ρ → Option σ
  | .next s => some s
  | .fault _ => none
  | .refused _ => none

/-- The refusal of an outcome, if it is one. -/
def refusalOf {σ φ ρ : Type} : Host.Outcome σ φ ρ → Option ρ
  | .refused r => some r
  | .next _ => none
  | .fault _ => none

/-- A ready instance with an engine state and nothing on its interface. -/
def holding {v : Variant} (e : Engine v) : State :=
  { variant := v, engine := e, ready := true, inbox := [], outbox := [], draws := 0 }

/-- An engine that holds `n` pending bytes `0x61` and has absorbed nothing else. -/
def filledWith (v : Variant) (n : Nat) : Engine v :=
  { Engine.s0 v with
    buf := (List.range n).map fun a => (a, 0x61)
    filled := BitVec.ofNat v.FW n
    length := BitVec.ofNat v.L n }

/-- An engine after a FINALIZE. -/
def afterFinalize (v : Variant) : Engine v := { Engine.s0 v with phase := .finalized }

/-- A state with events presented. -/
def facing (s : State) (evs : List HostEvent) : State := { s with inbox := evs }

/-- A command word and a payload, presented between commands. -/
def sent (cw : BitVec 32) (p : List Byte) : HostEvent := .command .idle { cw := cw, payload := p }

/-- The responses and the final state of a run over the lines of a command sequence. -/
def runLines (v : Variant) (lines : List AsmLine) : Option State :=
  nextOf (Host.Core.run Sys2Proof.core lines.length
    (facing (State.resetOf v) (lines.map fun l => .command .idle l.transaction)))

/-- The response words of a state, oldest first, and the data of the last response as a number. -/
def seen (s : State) : List Nat × Nat := (s.outbox.map fun r => r.rw.toNat, beNat ((s.outbox.map Response.dout).getLastD []))

/-! Well-formedness: one ill-formed term for each check. -/

theorem test_wf_refuses_too_long_payload : (Instr.update (List.replicate (2 ^ 24) 0)).wf = false := by
  simp only [Instr.wf, List.length_replicate]; rfl

theorem test_wf_accepts_longest_payload : (Instr.update (List.replicate (2 ^ 24 - 1) 0)).wf = true := by
  simp only [Instr.wf, List.length_replicate]; rfl

theorem test_wf_refuses_short_payload : Transaction.wf { cw := 0x00000302, payload := [0x61, 0x62] } = false := by decide

theorem test_wf_refuses_long_payload : Transaction.wf { cw := 0x00000001, payload := [0x00] } = false := by decide

theorem test_buffer_form_refuses_repeats : Memory.wf 64 [(1, 0x61), (1, 0x62)] = false := by decide

theorem test_buffer_form_refuses_index_out_of_range : Memory.wf 64 [(64, 0x61)] = false := by decide

/-! Decoding: words written out bit by bit from the fields of rule R101 (`N`, then `RSV`, then `OP`). -/

/-- RESET: `OP = 0x1` (rule R104). -/
theorem test_decode_reset :
    decode { cw := 0b000000000000000000000000_0000_0001, payload := [] } = .ok .reset := by decide

/-- UPDATE: `OP = 0x2` with `N = 3` (section 7 of 30_encoding.md). -/
theorem test_decode_update :
    decode { cw := 0b000000000000000000000011_0000_0010, payload := [0x61, 0x62, 0x63] } =
      .ok (.update [0x61, 0x62, 0x63]) := by decide

/-- FINALIZE: `OP = 0x3`. -/
theorem test_decode_finalize :
    decode { cw := 0b000000000000000000000000_0000_0011, payload := [] } = .ok .finalize := by decide

/-- QSIZE: `OP = 0x4`. -/
theorem test_decode_qsize :
    decode { cw := 0b000000000000000000000000_0000_0100, payload := [] } = .ok .qsize := by decide

/-- `OP = 0x0` and `OP = 0x5` to `0xF` are reserved (vectors Q4 and Q5). -/
theorem test_decode_reserved_op :
    ∀ op ∈ [0x0, 0x5, 0x6, 0x7, 0x8, 0x9, 0xA, 0xB, 0xC, 0xD, 0xE, 0xF],
      decode { cw := BitVec.ofNat 32 op, payload := [] } = .error .reservedOp := by decide

/-- `RSV ≠ 0` is illegal whatever the `OP` (vectors Q6 and U9, and the top bit of the field). -/
theorem test_decode_reserved_field :
    decode { cw := 0x00000011, payload := [] } = .error .reservedField ∧
    decode { cw := 0x00000012, payload := [] } = .error .reservedField ∧
    decode { cw := 0x00000084, payload := [] } = .error .reservedField := by decide

/-- An operand count on an operation without operands (vectors Q7 and F5). -/
theorem test_decode_operand_count :
    decode { cw := 0x00000101, payload := [0x00] } = .error .operandCount ∧
    decode { cw := 0x00000103, payload := [0x00] } = .error .operandCount ∧
    decode { cw := 0x00000104, payload := [0x00] } = .error .operandCount := by decide

theorem test_encode_update : encode (.update [0x61, 0x62, 0x63]) = { cw := 0x00000302, payload := [0x61, 0x62, 0x63] } := by
  decide

/-- The table word of `UPDATE "abc"`, its payload above the command word. -/
theorem test_decode_table_word : decodeTableWord 56 0x63626100000302 = some (.update [0x61, 0x62, 0x63]) := by decide

/-- A table word of 32 bits with `N ≠ 0` has a payload of zeros. -/
theorem test_decode_table_word_short : decodeTableWord 32 0x00000202 = some (.update [0x00, 0x00]) := by decide

/-! RESET and QSIZE (vectors Q1, Q2, Q3, Q9). -/

theorem test_reset_after_finalize :
    (nextOf (exec .reset (holding (afterFinalize .sha512)))).map (fun t => (t.outbox, t.engine.phase)) =
      some ([{ rw := 0x00000000, dout := [] }], .absorbing) := by decide

theorem test_reset_discards_the_buffer :
    (nextOf (exec .reset (holding (filledWith .sha256 3)))).map (fun t => (t.engine.filled.toNat, t.readBuf 0)) =
      some (0, none) := by decide

theorem test_qsize_sha256 :
    (nextOf (exec .qsize (holding (afterFinalize .sha256)))).map State.outbox =
      some [{ rw := 0x00002000, dout := [] }] := by decide

theorem test_qsize_sha512 :
    (nextOf (exec .qsize (State.resetOf .sha512))).map State.outbox =
      some [{ rw := 0x00004000, dout := [] }] := by decide

/-! UPDATE (vectors U1 and U6, and section 3.3). -/

/-- Vector U1. -/
theorem test_update_abc :
    (nextOf (exec (.update [0x61, 0x62, 0x63]) (State.resetOf .sha256))).map
        (fun t => (t.engine.filled.toNat, t.engine.length.toNat, [t.readBuf 0, t.readBuf 1, t.readBuf 2, t.readBuf 3])) =
      some (3, 3, [some 0x61, some 0x62, some 0x63, none]) := by decide +kernel

/-- Vector U6: `LENGTH` wraps, and nothing is reported. -/
theorem test_update_wraps_length :
    (nextOf (exec (.update [0x00, 0x00])
        (holding { Engine.s0 .sha256 with length := 0xFFFFFFFFFFFFFFFF }))).map
        (fun t => (t.engine.filled.toNat, t.engine.length.toNat, t.outbox)) =
      some (2, 1, [{ rw := 0x00000000, dout := [] }]) := by decide +kernel

/-! FINALIZE (vectors S0, S4 and the table of 42_finalize.md rule R233). -/

/-- Vector S0: SHA-256 of the empty message. -/
theorem test_finalize_empty_message :
    (runLines .sha256 [.finalize]).map seen =
      some ([0], 0xe3b0c44298fc1c149afbf4c8996fb92427ae41e4649b934ca495991b7852b855) := by decide +kernel

/-- Section 5.2, SHA512, `n = 112`: the padding spills into a second block. -/
theorem test_finalize_spills_into_a_second_block :
    (runLines .sha512 [.update (.fill 0x61 112), .finalize]).map seen =
      some ([0, 0], 0xc01d080efd492776a1c43bd23dd99d0a2e626d481e16782e75d54c2503b5dc32bd05f0f1ba33e568b88fd2d970929b719ecbb152f58f130a407c8830604b70ca) := by
  decide +kernel

/-- Rule R233: the zero counts, with `FILLED` as the `0x80` byte leaves it. -/
theorem test_zero_counts :
    [1, 2, 56, 57, 63, 0].map (zeroCount .sha256) = [55, 54, 0, 63, 57, 56] ∧
    [1, 2, 112, 113, 127, 0].map (zeroCount .sha512) = [111, 110, 0, 127, 113, 112] := by decide

/-- Section 5.1: the bit length wraps at `2^61` bytes. -/
theorem test_bit_length_wraps :
    (bitLength (v := .sha256) (BitVec.ofNat 64 (2 ^ 61 + 1))).toNat = 8 ∧
    bytesBe 8 (bitLength (v := .sha256) 3).toNat = [0, 0, 0, 0, 0, 0, 0, 0x18] := by decide

/-! Illegal words, and the order of the checks (vectors Q6, Q8, F5). -/

/-- Vector Q8: `E_ILLEGAL` wins over `E_FINALIZED`. -/
theorem test_illegal_wins_over_finalized :
    (nextOf (step (facing (holding (afterFinalize .sha256)) [sent 0x00000105 [0x00]]))).map
        (fun t => (t.outbox, t.inbox)) =
      some ([{ rw := 0x00000001, dout := [] }], []) := by decide

/-- Vector F5: FINALIZE with `N = 1` is no FINALIZE, and its payload byte is not absorbed. -/
theorem test_illegal_payload_is_discarded :
    (nextOf (step (facing (State.resetOf .sha256) [sent 0x00000103 [0x00]]))).map
        (fun t => (t.engine.length.toNat, t.engine.filled.toNat, t.engine.phase)) =
      some (0, 0, .absorbing) := by decide

/-! The functions of `COMPRESS` (sections 2 and 3). -/

theorem test_rotations_sha256 :
    rotr (v := .sha256) 1 0x00000001 = 0x80000000 ∧ rotr (v := .sha256) 31 0x00000001 = 0x00000002 ∧
    [bigSigma0, bigSigma1, smallSigma0, smallSigma1].map (fun f => f (0x510e527f : Word .sha256)) =
      [0x7ef0e1a9, 0x3587272b, 0x601c02a8, 0xe3640132] := by decide

theorem test_rotations_sha512 :
    [bigSigma0, bigSigma1, smallSigma0, smallSigma1].map (fun f => f (0x510e527fade682d1 : Word .sha512)) =
      [0xca4a40a4e604afc1, 0x9427e33bb5c9dbca, 0x79743bc956056aef, 0x596c80955bcc793d] := by decide

theorem test_choice_and_majority :
    ch (0x510e527f : Word .sha256) 0x9b05688c 0x1f83d9ab = 0x1f85c98c ∧
    maj (0x6a09e667 : Word .sha256) 0xbb67ae85 0x3c6ef372 = 0x3a6fe667 := by decide

/-- Section 3.3. -/
theorem test_compress_sha256 :
    compress (v := .sha256) iv256 (List.replicate 64 0x61) =
      #v[0xdf5bb81c, 0xe81e0626, 0xfb45a894, 0x4fd40f31, 0xb25e6816, 0xd6d499c1, 0xab904929, 0x00635e66] := by
  decide +kernel

/-- Section 3.3. -/
theorem test_compress_sha512 :
    compress (v := .sha512) iv512 (List.replicate 128 0x61) =
      #v[0x03bf7c6e55c11b04, 0x0d48757f45285fdc, 0xed46689bfc9026c0, 0x281701a1424c80f5,
         0xca31738befe6afee, 0x30f5fe8d4e41e248, 0x9379d57c74895af4, 0x4b1e84ebc1bab8b0] := by
  decide +kernel

/-- Section 3.1: words 16, 17 and 63 of the schedule of the padded message "abc". -/
theorem test_schedule_of_abc :
    [16, 17, 63].map (fun t => (schedule .sha256 (pad .sha256 [0x61, 0x62, 0x63])).getD t 0) =
      [0x61626380, 0x000f0000, 0x12b1edeb] := by decide +kernel

/-! Command sequences (section 7, program P2, and the pseudo-commands of rule R115). -/

/-- Program P2: reset correctness and use after FINALIZE. -/
theorem test_program_p2 :
    (runLines .sha256 [.update (.text "abc"), .finalize, .update (.text "x"), .finalize, .reset,
        .update (.text "hello world"), .finalize]).map seen =
      some ([0, 0, 2, 2, 0, 0, 0], 0xb94d27b9934d3e08a52e52d7da7dabfac484efe37a5380ee9088f7ace2efcde9) := by
  decide +kernel

/-- Section 7 of 30_encoding.md, and the raw word `0x00000007` of rule R114. -/
theorem test_assembler_lines :
    AsmLine.transaction (.update (.text "abc")) = { cw := 0x00000302, payload := [0x61, 0x62, 0x63] } ∧
    AsmLine.transaction (.update (.hex [0x61, 0x62, 0x63])) = { cw := 0x00000302, payload := [0x61, 0x62, 0x63] } ∧
    AsmLine.transaction (.update (.fill 0x61 2)) = { cw := 0x00000202, payload := [0x61, 0x61] } ∧
    AsmLine.transaction (.word 0x00000007) = { cw := 0x00000007, payload := [] } := by decide

/-- Rule R115: the empty sequence gives one empty UPDATE, and a remainder gives a last, shorter piece. -/
theorem test_long_payloads :
    longPayloads [] = [[]] ∧ piecesOf 2 [0x61, 0x62, 0x63, 0x64, 0x65] = [[0x61, 0x62], [0x63, 0x64], [0x65]] ∧
    piecesOf 2 [0x61, 0x62, 0x63, 0x64] = [[0x61, 0x62], [0x63, 0x64]] := by decide

/-! The host's duties, power-up and fetching. -/

theorem test_fetched_word_runs :
    (nextOf (step (State.reset.withFetchWord 32 0x00000004))).map State.outbox =
      some [{ rw := 0x00002000, dout := [] }] := by decide

theorem test_no_command_before_the_reset :
    refusalOf (Host.Core.run Sys2Proof.core 2 (facing State.reset [.powerCycle, sent 0x00000004 []])) =
      some .commandBeforeReset := by rfl

/-! Witnesses: for each statement with hypotheses, states and operands that meet them. -/

theorem witness_WorkedCommandWordsDecode : (List.replicate (2 ^ 24 - 1) (0 : Byte)).length = 2 ^ 24 - 1 :=
  List.length_replicate

theorem witness_DecodeInvertsEncode :
    Instr.reset.wf = true ∧ (Instr.update []).wf = true ∧ (Instr.update (List.replicate (2 ^ 24 - 1) 0)).wf = true ∧
    Instr.finalize.wf = true ∧ Instr.qsize.wf = true :=
  ⟨rfl, rfl, test_wf_accepts_longest_payload, rfl, rfl⟩

theorem witness_EncodeInvertsDecode :
    Transaction.wf { cw := 0x00000102, payload := [0xFF] } = true ∧
    decode { cw := 0x00000102, payload := [0xFF] } = .ok (.update [0xFF]) := by decide

theorem witness_DecoderAgreesWithOpcodeTable :
    (∀ r ∈ opcodeTable, r.covers r.pattern = true) ∧
    decode { cw := 0x00000102, payload := [0xFF] } = .ok (.update [0xFF]) ∧
    (∀ r ∈ opcodeTable, r.covers 0x00000101 = false) ∧
    (facing State.reset [sent 0x00000101 [0x00]]).inbox = .command .idle { cw := 0x00000101, payload := [0x00] } :: [] ∧
    Transaction.wf { cw := 0x00000101, payload := [0x00] } = true ∧ State.reset.ready = true := by decide

theorem witness_IllegalWordsAreAnsweredAndChangeNothing :
    (opField 0x00000000#32 = 0x0 ∧ 5 ≤ (opField 0x00000005#32).toNat ∧ 5 ≤ (opField 0x0000000F#32).toNat ∧
      rsvField 0x00000011#32 ≠ 0 ∧ rsvField 0x00000081#32 ≠ 0 ∧
      (opField 0x00000101#32 = 0x1 ∧ nField 0x00000101#32 ≠ 0)) ∧
    (let s := facing (holding (afterFinalize .sha512)) [sent 0x00000103 [0x00]]
     s.ready = true ∧ Transaction.wf { cw := 0x00000103, payload := [0x00] } = true ∧
      s.inbox = .command .idle { cw := 0x00000103, payload := [0x00] } :: [] ∧
      decode { cw := 0x00000103, payload := [0x00] } = .error .operandCount) := by decide

theorem witness_StepRunsThePresentedCommand :
    let s := facing (State.resetOf .sha512) [sent 0x00000102 [0x61], sent 0x00000003 []]
    s.ready = true ∧ Transaction.wf { cw := 0x00000102, payload := [0x61] } = true ∧
      s.inbox = .command .idle { cw := 0x00000102, payload := [0x61] } :: [sent 0x00000003 []] ∧
      decode { cw := 0x00000102, payload := [0x61] } = .ok (.update [0x61]) ∧ (Instr.update [0x61]).wf = true := by decide

theorem witness_IdleStepKeepsTheState : State.reset.inbox = [] ∧ (holding (filledWith .sha512 127)).inbox = [] := by decide

theorem witness_HostDutiesNotMetAreRefused :
    (let s := facing { State.reset with ready := false } [sent 0x00000001 []]
     s.inbox = .command .idle { cw := 0x00000001, payload := [] } :: [] ∧ s.ready = false) ∧
    (let s := facing State.reset [sent 0x00000102 []]
     s.inbox = .command .idle { cw := 0x00000102, payload := [] } :: [] ∧ s.ready = true ∧
      ([] : List Byte).length ≠ (nField 0x00000102#32).toNat) ∧
    (facing State.reset [.command .busy { cw := 0x00000004, payload := [] }]).inbox =
      .command .busy { cw := 0x00000004, payload := [] } :: [] ∧
    (facing State.reset [.hardReset .busy]).inbox = .hardReset .busy :: [] := by decide

theorem witness_EveryCommandCompletesWithTheStatusOfTheFirstFailedCheck :
    (∀ v : Variant, (facing (holding (afterFinalize v)) [sent 0x00000002 []]).ready = true) ∧
    Transaction.wf { cw := 0x00000002, payload := [] } = true ∧
    decode { cw := 0x00000002, payload := [] } = .ok (.update []) ∧
    (afterFinalize .sha256).phase = .finalized ∧ (filledWith .sha256 63).phase = .absorbing ∧
    decode { cw := 0x00000003, payload := [] } = .ok .finalize ∧
    decode { cw := 0x00000001, payload := [] } = .ok .reset ∧
    decode { cw := 0x00000005, payload := [] } = .error .reservedOp := by
  refine ⟨fun _ => rfl, ?_⟩; decide

/-- A FINALIZE that answers `OK`, a QSIZE, and a rejected UPDATE: each gives a next state. -/
theorem witness_ResponsesHaveTheirForm :
    (∃ s', step (facing (State.resetOf .sha256) [sent 0x00000003 []]) = .next s') ∧
    (∃ s', step (facing (State.resetOf .sha512) [sent 0x00000004 []]) = .next s') ∧
    (∃ s', step (facing (holding (afterFinalize .sha256)) [sent 0x00000002 []]) = .next s') :=
  ⟨⟨_, rfl⟩, ⟨_, rfl⟩, ⟨_, rfl⟩⟩

theorem witness_RejectedCommandsChangeNothing :
    (facing (holding (afterFinalize .sha256)) [sent 0x00000102 [0x61]]).inbox =
      .command .idle { cw := 0x00000102, payload := [0x61] } :: [] ∧
    ∃ s' r, step (facing (holding (afterFinalize .sha256)) [sent 0x00000102 [0x61]]) = .next s' ∧
      s'.outbox = [r] ∧ r.rw.extractLsb' 0 4 ≠ 0x0 :=
  ⟨rfl, _, _, rfl, rfl, by decide⟩

theorem witness_RejectedCommandsLeaveNoTrace :
    (facing (holding (afterFinalize .sha256)) [sent 0x00000102 [0x61], sent 0x00000004 []]).inbox =
      .command .idle { cw := 0x00000102, payload := [0x61] } :: [sent 0x00000004 []] ∧
    ∃ s' r u, step (facing (holding (afterFinalize .sha256)) [sent 0x00000102 [0x61], sent 0x00000004 []]) = .next s' ∧
      s'.outbox = [] ++ [r] ∧ r.rw.extractLsb' 0 4 ≠ 0x0 ∧ Host.Core.run Sys2Proof.core 1 s' = .next u :=
  ⟨rfl, _, _, _, rfl, rfl, by decide, rfl⟩

theorem witness_EventsComposeInOrder :
    ∃ t, Host.Core.run Sys2Proof.core [sent 0x00000004 [], sent 0x00000001 []].length
      { State.resetOf .sha512 with inbox := [sent 0x00000004 [], sent 0x00000001 []] } = .next t := ⟨_, rfl⟩

/-- RESET with `RSV = 1` and RESET with `N = 1` (vectors Q6 and Q7). -/
theorem witness_ResetGivesTheInitialState :
    opField 0x00000011#32 = 0x1 ∧ 0x00000011#32 ≠ 0x00000001#32 ∧ opField 0x00000101#32 = 0x1 ∧
    0x00000101#32 ≠ 0x00000001#32 := by decide

/-- `F0 + n = B + 1` leaves one byte, so `j = 1` is the first stale one. -/
theorem witness_StaleBytesHaveNoValue :
    (∃ t, exec .reset (holding (filledWith .sha256 63)) = .next t) ∧
    ((filledWith .sha256 63).Inv ∧ ((filledWith .sha256 63).filled.toNat + [(0x61 : Byte), 0x62].length) % 64 ≤ 1) ∧
    ((holding (filledWith .sha256 63)).engine.phase = .absorbing ∧
      ∃ t, exec .finalize (holding (filledWith .sha256 63)) = .next t) :=
  ⟨⟨_, rfl⟩, by decide, rfl, _, rfl⟩

theorem witness_NothingBeforeAResetMatters :
    ∃ t, Host.Core.run Sys2Proof.core (1 + 1)
      { State.resetOf .sha256 with
        engine := (afterFinalize .sha256 : Engine .sha256)
        outbox := [{ rw := 0x00000000, dout := [0x61] }]
        inbox := .command .idle (encode .reset) :: [sent 0x00000004 []] } = .next t := ⟨_, rfl⟩

theorem witness_QsizeAnswersTheDigestSize :
    (opField 0x00000104#32 = 0x4 ∧ 0x00000104#32 ≠ 0x00000004#32) ∧
    (holding (afterFinalize .sha256)).variant = .sha256 ∧ (State.resetOf .sha512).variant = .sha512 := by decide

theorem witness_OnlyUpdateAndFinalizeAreNotIdempotent :
    (∃ s₁ s₂, exec .reset (holding (filledWith .sha256 63)) = .next s₁ ∧ exec .reset s₁ = .next s₂) ∧
    (∃ s₁ s₂, exec .qsize (holding (filledWith .sha256 63)) = .next s₁ ∧ exec .qsize s₁ = .next s₂) ∧
    ((State.resetOf .sha256).engine.phase = .absorbing ∧ (Instr.update [0x61]).wf = true ∧
      ∃ s₁ s₂, exec (.update [0x61]) (State.resetOf .sha256) = .next s₁ ∧ exec (.update [0x61]) s₁ = .next s₂) ∧
    (∃ s₁ s₂, exec .finalize (State.resetOf .sha512) = .next s₁ ∧ exec .finalize s₁ = .next s₂) :=
  ⟨⟨_, _, rfl, rfl⟩, ⟨_, _, rfl, rfl⟩, ⟨rfl, rfl, _, _, rfl, rfl⟩, ⟨_, _, rfl, rfl⟩⟩

theorem witness_CommandsThatStoreNothingKeepEveryByte :
    (∃ t, exec .qsize (holding (filledWith .sha256 63)) = .next t) ∧
    (holding (afterFinalize .sha512)).engine.phase = .finalized ∧
    (∃ t, exec (.update [0x61]) (holding (afterFinalize .sha512)) = .next t) ∧
    (∃ t, exec .finalize (holding (afterFinalize .sha512)) = .next t) :=
  ⟨⟨_, rfl⟩, rfl, ⟨_, rfl⟩, ⟨_, rfl⟩⟩

theorem witness_PhaseIsWrittenOnlyByFinalizeAndReset :
    (∃ t, exec .finalize (State.resetOf .sha256) = .next t) ∧
    (∃ t, exec .reset (holding (afterFinalize .sha256)) = .next t) ∧
    (∃ t, exec (.update [0x61]) (State.resetOf .sha256) = .next t) ∧
    (∃ t, handle (.hardReset .idle) (holding (afterFinalize .sha256)) = .next t) :=
  ⟨⟨_, rfl⟩, ⟨_, rfl⟩, ⟨_, rfl⟩, ⟨_, rfl⟩⟩

theorem witness_HashIsWrittenOnlyByResetAndCompress :
    (State.resetOf .sha256).engine.phase = .absorbing ∧ (holding (afterFinalize .sha256)).engine.phase = .finalized := by
  decide

/-- Both ways out of phase `FINALIZED`. -/
theorem witness_FinalizedIsLeftOnlyByReset :
    (holding (afterFinalize .sha256)).ready = true ∧ (holding (afterFinalize .sha256)).engine.phase = .finalized ∧
    (∃ s', step (facing (holding (afterFinalize .sha256)) [sent 0x00000001 []]) = .next s' ∧
      s'.ready = true ∧ s'.engine.phase = .absorbing) ∧
    (∃ s', step (facing (holding (afterFinalize .sha256)) [.hardReset .idle]) = .next s' ∧
      s'.ready = true ∧ s'.engine.phase = .absorbing) :=
  ⟨rfl, rfl, ⟨_, rfl, rfl, rfl⟩, ⟨_, rfl, rfl, rfl⟩⟩

theorem witness_PowerUpNeedsTheHardwareReset :
    (facing State.reset [.powerCycle, sent 0x00000001 []]).inbox = .powerCycle :: [sent 0x00000001 []] ∧
    (facing State.reset [.powerCycle, .hardReset .idle]).inbox = .powerCycle :: [.hardReset .idle] := by decide

theorem witness_VariantNeverChanges :
    ∃ s', step (facing (State.resetOf .sha512) [.powerCycle]) = .next s' := ⟨_, rfl⟩

theorem witness_StepKeepsTheInvariant :
    (holding (filledWith .sha256 63)).Inv ∧ (holding (afterFinalize .sha512)).Inv ∧
    (∃ s', step (facing (holding (filledWith .sha256 63)) [sent 0x00000102 [0x61]]) = .next s') :=
  ⟨by decide, by decide, ⟨_, rfl⟩⟩

theorem witness_StepKeepsTheBufferCanonical :
    (holding (filledWith .sha256 63)).engine.buf.wf 64 = true ∧
    (∃ s', step (facing (holding (filledWith .sha256 63)) [sent 0x00000202 [0x61, 0x62]]) = .next s') :=
  ⟨by decide, ⟨_, rfl⟩⟩

/-- One byte short of a full buffer, in both variants, and both phases. -/
theorem witness_UpdateAbsorbsItsPayload :
    (opField 0x00000012#32 = 0x2 ∧ rsvField 0x00000012#32 ≠ 0) ∧
    ((filledWith .sha256 63).phase = .absorbing ∧ (filledWith .sha256 63).Inv) ∧
    ((filledWith .sha512 127).phase = .absorbing ∧ (filledWith .sha512 127).Inv) ∧
    (holding (afterFinalize .sha512)).engine.phase = .finalized := by decide +kernel

/-- `F0 + n = B`: one call, numbered 0 here. -/
theorem witness_AbsorbCompressesTheWholeBlocksInOrder :
    (filledWith .sha256 63).Inv ∧ 0 < ((filledWith .sha256 63).filled.toNat + [(0x61 : Byte)].length) / 64 ∧
    62 < (filledWith .sha256 63).filled.toNat := by decide

/-- `F0 + n = B + 1` leaves one byte, at `j = 0`. -/
theorem witness_AbsorbLeavesTheRemainderBuffered :
    (filledWith .sha256 63).Inv ∧ 0 < ((filledWith .sha256 63).filled.toNat + [(0x61 : Byte), 0x62].length) % 64 := by decide

theorem witness_EmptyUpdateIsAcceptedAndChangesNothing :
    (holding (filledWith .sha512 127)).engine.phase = .absorbing := by decide

/-- The last two fill counts: one does not fill the buffer and the other does. -/
theorem witness_AbsorbEntersOneByteAtATime :
    (filledWith .sha256 62).filled.toNat + 1 < Variant.sha256.B ∧ (filledWith .sha256 63).filled.toNat + 1 = Variant.sha256.B ∧
    (filledWith .sha512 126).filled.toNat + 1 < Variant.sha512.B ∧ (filledWith .sha512 127).filled.toNat + 1 = Variant.sha512.B := by
  decide

theorem witness_LengthWrapsAndNothingElseDependsOnIt :
    (holding ({ Engine.s0 .sha256 with length := 0xFFFFFFFFFFFFFFFF } : Engine .sha256)).engine.phase = .absorbing := by
  decide

/-- `F0 + N = B − 1`, the most that does not fill the buffer; `a` below and above the stored bytes, `j` the last of them. -/
theorem witness_UpdateWithinTheBlockStoresOnlyItsPayload :
    (holding (filledWith .sha256 61)).engine.phase = .absorbing ∧
    (holding (filledWith .sha256 61)).engine.filled.toNat + [(0x62 : Byte), 0x63].length < Variant.sha256.B ∧
    60 < (filledWith .sha256 61).filled.toNat ∧ (filledWith .sha256 61).filled.toNat + [(0x62 : Byte), 0x63].length ≤ 63 ∧
    1 < [(0x62 : Byte), 0x63].length := by decide

theorem witness_UpdateAndFinalizeAreRejectedAfterFinalize :
    (holding (afterFinalize .sha256)).engine.phase = .finalized ∧
    (holding (afterFinalize .sha512)).engine.phase = .finalized := by decide

/-- An engine that stands for the 63 bytes it holds. -/
theorem filledWith_absorbed : Absorbed (filledWith .sha256 63) (List.replicate 63 0x61) :=
  ⟨by decide, by decide, by decide, by decide, by decide, by decide⟩

theorem witness_EngineStandsForTheMessageAbsorbed :
    (∃ t, exec .reset (holding (filledWith .sha256 63)) = .next t) ∧
    (∃ t, handle (.hardReset .idle) (holding (filledWith .sha256 63)) = .next t) ∧
    Absorbed (holding (filledWith .sha256 63)).engine (List.replicate 63 0x61) ∧
    (∃ t, exec (.update [0x61]) (holding (filledWith .sha256 63)) = .next t) ∧
    (∃ t, exec .qsize (holding (filledWith .sha256 63)) = .next t) ∧
    (decode { cw := 0x00000000, payload := [] } = .error .reservedOp ∧
      ∃ t, transact { cw := 0x00000000, payload := [] } (holding (filledWith .sha256 63)) = .next t) :=
  ⟨⟨_, rfl⟩, ⟨_, rfl⟩, filledWith_absorbed, ⟨_, rfl⟩, ⟨_, rfl⟩, by decide, ⟨_, rfl⟩⟩

/-- The two cases of FINALIZE's count, at their boundary. -/
theorem witness_CompressCallsOfEachCommand :
    (holding (filledWith .sha256 55)).engine.phase = .absorbing ∧ (filledWith .sha256 55).filled.toNat ≤ 64 - 8 - 1 ∧
    ¬ (filledWith .sha256 56).filled.toNat ≤ 64 - 8 - 1 := by decide

theorem witness_FinalizePadsAndAnswersTheDigest :
    (opField 0x00000103#32 = 0x3 ∧ 0x00000103#32 ≠ 0x00000003#32) ∧
    (holding (filledWith .sha256 56)).engine.phase = .absorbing ∧ (holding (filledWith .sha256 56)).engine.Inv ∧
    (holding (filledWith .sha512 111)).engine.phase = .absorbing ∧ (holding (filledWith .sha512 111)).engine.Inv ∧
    (holding (afterFinalize .sha512)).engine.phase = .finalized := by
  decide +kernel

/-- A state that breaks rule R37: 63 bytes counted and none held. -/
theorem witness_FinalizeCompletesFromEveryAbsorbingState :
    (holding ({ Engine.s0 .sha256 with filled := 63 } : Engine .sha256)).engine.phase = .absorbing ∧
    ¬ (holding ({ Engine.s0 .sha256 with filled := 63 } : Engine .sha256)).engine.Inv := by decide

theorem witness_PaddingLengthLaw :
    (0 < Variant.sha256.B ∧ 63 < Variant.sha256.B ∧ 127 < Variant.sha512.B) ∧
    (filledWith .sha256 63).filled.toNat = 63 ∧ (filledWith .sha512 111).filled.toNat = 111 := by decide

theorem witness_BitLengthWraps : Absorbed (filledWith .sha256 63) (List.replicate 63 0x61) :=
  filledWith_absorbed

theorem witness_DigestBytesAreTheStateWords :
    0 < Variant.sha256.NB ∧ 3 < Variant.sha256.NB ∧ 7 < Variant.sha512.NB := by decide

theorem witness_DigestOfAMessageInAnyPieces :
    (holding (afterFinalize .sha512)).ready = true ∧
    ∀ p ∈ [[], [(0x61 : Byte)], [], [0x62, 0x63]], (Instr.update p).wf = true := by decide

/-- A session in each phase, and a list with an illegal word in it. -/
theorem witness_ResponsesFollowTheSession :
    (holding (filledWith .sha256 63)).ready = true ∧
    Represents (filledWith .sha256 63) (.absorbing (List.replicate 63 0x61)) ∧
    Represents (afterFinalize .sha512) .finalized ∧
    ∀ t ∈ [encode (.update [0x61]), { cw := 0x00000105, payload := [0x00] }, encode .finalize], t.wf = true :=
  ⟨rfl, filledWith_absorbed, ⟨rfl, rfl, rfl⟩, by decide⟩

theorem witness_PseudoCommandsExpand :
    0 < (longPayloads [0x61]).length ∧ ([(0x61 : Byte)] ≠ [] ∧ ([] : List Byte) = [] ∧ [0x61] ∈ longPayloads [0x61]) ∧ State.reset.ready = true := by decide

theorem witness_ScheduleFollowsTheRecurrence :
    (15 < 16 ∧ 16 ≤ 16 ∧ 16 < Variant.sha256.R) ∧ (16 ≤ 63 ∧ 63 < Variant.sha256.R) ∧ (16 ≤ 79 ∧ 79 < Variant.sha512.R) := by
  decide

theorem witness_CompressRunsTheRoundsInOrder : 63 < Variant.sha256.R ∧ 79 < Variant.sha512.R := by decide

theorem witness_RotationAndShiftMoveBits :
    (0 < 1 ∧ 31 < Variant.sha256.W) ∧ (31 + 1 = Variant.sha256.W ∧ 30 + 1 < Variant.sha256.W) ∧ 63 < Variant.sha512.W := by
  decide

theorem witness_ChChoosesAndMajTakesTheMajority : 0 < Variant.sha256.W ∧ 63 < Variant.sha512.W := by decide

theorem witness_SigmaFunctionsOnZeroAndAllOnes :
    2 ∈ [(rotationAmounts .sha256).a0, (rotationAmounts .sha256).a1] := by decide

theorem witness_AllZeroBlockHasAZeroSchedule : 0 < Variant.sha256.R ∧ 63 < Variant.sha256.R ∧ 79 < Variant.sha512.R := by
  decide

theorem witness_BlockWordsAreBigEndian :
    (List.replicate 64 (0x61 : Byte)).length = Variant.sha256.B ∧ (List.replicate 128 (0x61 : Byte)).length = Variant.sha512.B ∧
    15 < 16 ∧ 3 < Variant.sha256.NB ∧ 7 < Variant.sha512.NB := by decide

theorem witness_RoundConstantsAreCubeRootsOfPrimes : 63 < Variant.sha256.R ∧ 79 < Variant.sha512.R := by decide

end Sys2Proof.Tests
end

section
/-! The initial hash words of `S0` (10_state.md rules R34, R35 and R47) and the square roots of the first eight primes. -/

namespace Sys2Proof.Machine

/-- The first eight primes. -/
def ivPrimes : Vector Nat 8 := #v[2, 3, 5, 7, 11, 13, 17, 19]

/-- The integer parts of the square roots of the first eight primes. -/
def ivRootFloors : Vector Nat 8 := #v[1, 1, 2, 2, 3, 3, 4, 4]

/-- The square root of prime `i` with `W` fractional bits: its integer part above the bits of `IV[i]`. -/
def ivRoot (v : Variant) (i : Fin 8) : Nat := 2 ^ v.W * ivRootFloors[i] + (iv v)[i].toNat

/-- The first `n` candidates of the trial division give the first of the primes. -/
theorem range_filter_prefix_smallPrimes {n : Nat} (hn : n ≤ 410) :
    (List.range n).filter (fun p => decide (2 ≤ p) &&
      (List.range p).all fun d => decide (d < 2) || decide (p % d ≠ 0)) <+: smallPrimes := by
  have hrange : List.range n <+: List.range 410 := by
    rw [← Nat.add_sub_cancel' hn, List.range_add]
    exact List.prefix_append _ _
  exact hrange.filter _

/-- The candidates below 20 already give all of `ivPrimes`. -/
theorem ivPrimes_prefix_smallPrimes : ivPrimes.toList <+: smallPrimes :=
  range_filter_prefix_smallPrimes (n := 20) (by decide)

theorem smallPrimes_getElem?_of_lt_eight (i : Fin 8) : smallPrimes[i.val]? = some ivPrimes[i] := by
  have hi : i.val < ivPrimes.toList.length := by simp
  simpa using List.prefix_iff_getElem?.1 ivPrimes_prefix_smallPrimes i.val hi

/-- `ivRoot` is the integer square root of `p_i · 2^(2W)`. -/
theorem ivRoot_isSqrt (v : Variant) (i : Fin 8) :
    ivRoot v i ^ 2 ≤ ivPrimes[i] * 2 ^ (2 * v.W) ∧ ivPrimes[i] * 2 ^ (2 * v.W) < (ivRoot v i + 1) ^ 2 := by
  cases v with
  | sha256 => revert i; decide
  | sha512 => revert i; decide

/-- Modulo `2^W` only the fractional bits of the root are left. -/
theorem ofNat_ivRoot (v : Variant) (i : Fin 8) : BitVec.ofNat v.W (ivRoot v i) = (iv v)[i] := by
  apply BitVec.eq_of_toNat_eq
  rw [BitVec.toNat_ofNat, ivRoot, Nat.mul_add_mod, Nat.mod_eq_of_lt (BitVec.isLt _)]

end Sys2Proof.Machine

open Sys2Proof Sys2Proof.Machine

/-- Settles O56: `ivRoot` is the integer square root, and its low `W` bits are the word of the table. -/
theorem initialHashWordsAreSquareRootsOfPrimes : Obligations.InitialHashWordsAreSquareRootsOfPrimes := by
  refine ⟨rfl, rfl, fun v i => ?_⟩
  obtain ⟨hle, hlt⟩ := ivRoot_isSqrt v i
  rw [Engine.s0_H]
  exact ⟨ivPrimes[i], ivRoot v i, smallPrimes_getElem?_of_lt_eight i, hle, hlt, (ofNat_ivRoot v i).symm⟩

end

section
/-! Running the events presented one after another (20_memory.md rule R82): a run splits where its first steps end, and
the steps of the events in front do not look at those presented after them. -/

namespace Sys2Proof.Machine

theorem run_add {s t : State} {m : Nat} (h : Host.Core.run Sys2Proof.core m s = .next t) (k : Nat) :
    Host.Core.run Sys2Proof.core (m + k) s = Host.Core.run Sys2Proof.core k t := by
  induction m generalizing s with
  | zero => cases h; rw [Nat.zero_add]
  | succ m ih =>
    obtain ⟨s', hstep, hrun⟩ := run_next_inv h
    rw [Nat.add_right_comm, run_next _ hstep, ih hrun]

/-- The step of the first event leaves the rest presented, and does the same with more events behind them. -/
theorem step_append_inbox {s s' : State} {ev : HostEvent} {rest : List HostEvent}
    (h : step { s with inbox := ev :: rest } = .next s') (ys : List HostEvent) :
    s'.inbox = rest ∧ step { s with inbox := ev :: (rest ++ ys) } = .next { s' with inbox := rest ++ ys } := by
  rw [step_event rfl] at h
  obtain ⟨hin, given, hout, hframe⟩ := handle_frame h
  refine ⟨hin, ?_⟩
  rw [step_event rfl, hout]
  exact hframe (rest ++ ys) s.outbox

/-- One step for each of the events `xs` takes exactly these off the interface, whatever is presented behind them. -/
theorem run_append_inbox {s t : State} {xs : List HostEvent}
    (h : Host.Core.run Sys2Proof.core xs.length { s with inbox := xs } = .next t) (ys : List HostEvent) :
    t.inbox = [] ∧
    Host.Core.run Sys2Proof.core xs.length { s with inbox := xs ++ ys } = .next { t with inbox := ys } := by
  induction xs generalizing s with
  | nil => cases h; exact ⟨rfl, rfl⟩
  | cons ev rest ih =>
    obtain ⟨s', hstep, hrun⟩ := run_next_inv h
    obtain ⟨hin, hstep'⟩ := step_append_inbox hstep ys
    have hs' : s' = { s' with inbox := rest } := by rw [← hin]
    rw [hs'] at hrun
    obtain ⟨hempty, hrun'⟩ := ih hrun
    exact ⟨hempty, (run_next _ hstep').trans hrun'⟩

end Sys2Proof.Machine

open Sys2Proof Sys2Proof.Machine

/-- Settles O13: the run of `xs` leaves `ys` presented at the state it reaches, and the run goes on from there. -/
theorem eventsComposeInOrder : Obligations.EventsComposeInOrder := by
  intro s t xs ys k h
  obtain ⟨hempty, hrun⟩ := run_append_inbox h ys
  exact ⟨hempty, run_add hrun k⟩

end

section
/-! The opcode table of 30_encoding.md rule R111 and the decoder, both told by the fields of rule R101, and the answer to a
word that is illegal (60_exceptions.md rule R301). -/

namespace Sys2Proof

open Sys2Proof.Machine

theorem opField_toNat (cw : BitVec 32) : (opField cw).toNat = cw.toNat % 16 := by
  simp [opField, BitVec.extractLsb'_toNat]

theorem rsvField_toNat (cw : BitVec 32) : (rsvField cw).toNat = cw.toNat / 16 % 16 := by
  simp [rsvField, BitVec.extractLsb'_toNat, Nat.shiftRight_eq_div_pow]

theorem nField_toNat (cw : BitVec 32) : (nField cw).toNat = cw.toNat / 256 := by
  have := cw.isLt
  simp only [nField, BitVec.extractLsb'_toNat, Nat.shiftRight_eq_div_pow]
  omega

/-- A row that compares every bit with a word whose `N` and `RSV` are zero. -/
theorem and_allOnes_eq_iff (cw : BitVec 32) (op : BitVec 4) :
    cw &&& 0xFFFFFFFF = commandWord 0 op ↔ rsvField cw = 0 ∧ opField cw = op ∧ nField cw = 0 := by
  have hmask : cw &&& 0xFFFFFFFF = cw := BitVec.and_allOnes
  rw [hmask]
  constructor
  · rintro rfl
    exact ⟨rsvField_commandWord _ _, opField_commandWord _ _, nField_commandWord _ _⟩
  · rintro ⟨hr, rfl, hn⟩
    rw [← hn, commandWord_fields hr]

/-- The row that compares only the low byte, `RSV` and `OP`. -/
theorem and_lowByte_eq_iff (cw : BitVec 32) (op : BitVec 4) :
    cw &&& 0x000000FF = commandWord 0 op ↔ rsvField cw = 0 ∧ opField cw = op := by
  have hand : (cw &&& 0x000000FF).toNat = cw.toNat % 256 := Nat.and_two_pow_sub_one_eq_mod cw.toNat 8
  have hop := op.isLt
  rw [BitVec.toNat_eq, hand, commandWord_toNat, BitVec.toNat_eq, BitVec.toNat_eq, rsvField_toNat, opField_toNat]
  have h0 (w : Nat) : (0 : BitVec w).toNat = 0 := by simp
  rw [h0, h0]
  omega

/-- Which words decode to the command of a given name. -/
theorem exists_decode_mnemonic_iff (t : Transaction) (name : String) :
    (∃ i, decode t = .ok i ∧ i.mnemonic = name) ↔ rsvField t.cw = 0 ∧
      ((opField t.cw = 0x1 ∧ nField t.cw = 0 ∧ "RESET" = name) ∨ (opField t.cw = 0x2 ∧ "UPDATE" = name) ∨
       (opField t.cw = 0x3 ∧ nField t.cw = 0 ∧ "FINALIZE" = name) ∨
       (opField t.cw = 0x4 ∧ nField t.cw = 0 ∧ "QSIZE" = name)) := by
  constructor
  · rintro ⟨i, hd, rfl⟩
    obtain ⟨hr, ⟨ho, hn, rfl⟩ | ⟨ho, rfl⟩ | ⟨ho, hn, rfl⟩ | ⟨ho, hn, rfl⟩⟩ := decode_ok hd
    · exact ⟨hr, .inl ⟨ho, hn, rfl⟩⟩
    · exact ⟨hr, .inr (.inl ⟨ho, rfl⟩)⟩
    · exact ⟨hr, .inr (.inr (.inl ⟨ho, hn, rfl⟩))⟩
    · exact ⟨hr, .inr (.inr (.inr ⟨ho, hn, rfl⟩))⟩
  · rintro ⟨hr, ⟨ho, hn, rfl⟩ | ⟨ho, rfl⟩ | ⟨ho, hn, rfl⟩ | ⟨ho, hn, rfl⟩⟩
    · exact ⟨.reset, by simp [decode_eq, hr, ho, hn], rfl⟩
    · exact ⟨.update t.payload, by simp [decode_eq, hr, ho], rfl⟩
    · exact ⟨.finalize, by simp [decode_eq, hr, ho, hn], rfl⟩
    · exact ⟨.qsize, by simp [decode_eq, hr, ho, hn], rfl⟩

theorem update_operand {t : Transaction} {p : List Byte} (hd : decode t = .ok (.update p)) : p = t.payload := by
  have h : opField t.cw = 0x2 ∧ p = t.payload := by simpa using (decode_ok hd).2
  exact h.2

/-- The four values of `OP` that name an operation. -/
theorem reservedOp_iff (op : BitVec 4) :
    (op = 0x0 ∨ 0x5 ≤ op.toNat) ↔ ¬ (op = 0x1 ∨ op = 0x2 ∨ op = 0x3 ∨ op = 0x4) := by
  revert op; decide

/-- The decoder rejects exactly the words of the three cases of rule R301. -/
theorem decode_error_iff (t : Transaction) : (∃ err, decode t = .error err) ↔
    (opField t.cw = 0x0 ∨ 0x5 ≤ (opField t.cw).toNat) ∨ rsvField t.cw ≠ 0 ∨
      ((opField t.cw = 0x1 ∨ opField t.cw = 0x3 ∨ opField t.cw = 0x4) ∧ nField t.cw ≠ 0) := by
  rw [reservedOp_iff, decode_eq]
  split_ifs <;> simp_all

theorem decode_error_iff_no_ok (t : Transaction) : (∃ err, decode t = .error err) ↔ ¬ ∃ i, decode t = .ok i := by
  cases decode t <;> simp

/-- Rule R111: a row covers exactly the words that decode to the command of its name. -/
theorem covers_iff_decode (t : Transaction) {r : OpcodeRow} (hr : r ∈ opcodeTable) :
    r.covers t.cw = true ↔ ∃ i, decode t = .ok i ∧ i.mnemonic = r.mnemonic := by
  rw [exists_decode_mnemonic_iff, OpcodeRow.covers, beq_iff_eq]
  simp only [opcodeTable, List.mem_cons, List.not_mem_nil, or_false] at hr
  rcases hr with rfl | rfl | rfl | rfl
  · simpa [commandWord] using and_allOnes_eq_iff t.cw 0x1
  · simpa [commandWord] using and_lowByte_eq_iff t.cw 0x2
  · simpa [commandWord] using and_allOnes_eq_iff t.cw 0x3
  · simpa [commandWord] using and_allOnes_eq_iff t.cw 0x4

theorem exists_row_of_instr (i : Instr) : ∃ r ∈ opcodeTable, i.mnemonic = r.mnemonic := by
  cases i <;> simp [opcodeTable, Instr.mnemonic]

theorem row_eq_of_mnemonic_eq : ∀ r₁ ∈ opcodeTable, ∀ r₂ ∈ opcodeTable, r₁.mnemonic = r₂.mnemonic → r₁ = r₂ := by
  decide

/-- A word is illegal exactly when no row covers it (rule R111). -/
theorem decode_error_iff_no_row (t : Transaction) :
    (∃ err, decode t = .error err) ↔ ∀ r ∈ opcodeTable, r.covers t.cw = false := by
  rw [decode_error_iff_no_ok]
  constructor
  · intro hno r hr
    rw [Bool.eq_false_iff, Ne, covers_iff_decode t hr]
    rintro ⟨i, hd, -⟩
    exact hno ⟨i, hd⟩
  · rintro hno ⟨i, hd⟩
    obtain ⟨r, hr, hm⟩ := exists_row_of_instr i
    have hcov := (covers_iff_decode t hr).2 ⟨i, hd, hm⟩
    rw [hno r hr] at hcov
    cases hcov

/-- No word matches two rows: the decoder gives one command, and its name is that of one row. -/
theorem row_unique {cw : BitVec 32} {r₁ r₂ : OpcodeRow} (h₁ : r₁ ∈ opcodeTable) (h₂ : r₂ ∈ opcodeTable)
    (hc₁ : r₁.covers cw = true) (hc₂ : r₂.covers cw = true) : r₁ = r₂ := by
  obtain ⟨i, hi, hm₁⟩ := (covers_iff_decode ⟨cw, []⟩ h₁).1 hc₁
  obtain ⟨j, hj, hm₂⟩ := (covers_iff_decode ⟨cw, []⟩ h₂).1 hc₂
  cases hi.symm.trans hj
  exact row_eq_of_mnemonic_eq r₁ h₁ r₂ h₂ (hm₁.symm.trans hm₂)

theorem answeredIllegal_of_decode_error {t : Transaction} {err : DecodeError} (hd : decode t = .error err) :
    AnsweredIllegal t := by
  intro s rest hr hw hin
  rw [step_command hin, transact_illegal (s := s.take rest) hr hw hd, errorResponse_eIllegal]
  rfl

end Sys2Proof

open Sys2Proof Sys2Proof.Machine

/-- Settles O4: a row covers what decodes to its command, and the other clauses follow from that and the rows' names. -/
theorem decoderAgreesWithOpcodeTable : Obligations.DecoderAgreesWithOpcodeTable := by
  refine ⟨fun t r hr => covers_iff_decode t hr, decode_error_iff_no_row, fun cw r₁ r₂ => row_unique,
    fun t p => update_operand, fun t hno => ?_⟩
  obtain ⟨err, hd⟩ := (decode_error_iff_no_row t).2 hno
  exact answeredIllegal_of_decode_error hd

/-- Settles O5: the chain of the decoder rejects the three cases, and a rejected word only adds its response. -/
theorem illegalWordsAreAnsweredAndChangeNothing : Obligations.IllegalWordsAreAnsweredAndChangeNothing :=
  ⟨decode_error_iff, fun _ _ => answeredIllegal_of_decode_error⟩

end

section
/-! The response to a transaction (30_encoding.md rules R109 and R110, 60_exceptions.md rules R303 and R304): every admitted
one is answered, and the fields of the answer. -/

namespace Sys2Proof.Machine

@[simp] theorem okResponse_rw : okResponse.rw = responseWord .ok 0 := rfl
@[simp] theorem okResponse_dout : okResponse.dout = [] := rfl
@[simp] theorem errorResponse_rw (st : Status) : (errorResponse st).rw = responseWord st 0 := rfl
@[simp] theorem errorResponse_dout (st : Status) : (errorResponse st).dout = [] := rfl

/-- Every admitted transaction gives a next state. -/
theorem transact_completes {s : State} {t : Transaction} (hr : s.ready = true) (hw : t.wf = true) :
    ∃ s', transact t s = .next s' := by
  cases hd : decode t with
  | ok i =>
    obtain ⟨e, r, hx, -⟩ := exec_cases i s
    exact ⟨_, (transact_ok hr hw hd).trans hx⟩
  | error err => exact ⟨_, transact_illegal hr hw hd⟩

theorem serialize_length {v : Variant} (H : Vector (Word v) 8) : (serialize H).length = v.D := by
  have hsum : (serialize H).length = 8 * v.NB := by simp [serialize, bytesBe, List.length_flatMap]; omega
  rw [hsum]
  cases v <;> rfl

end Sys2Proof.Machine

open Sys2Proof Sys2Proof.Machine

/-- Settles O9: the step gives one of the six responses of `command_next`, and each has its status. -/
theorem everyCommandCompletesWithTheStatusOfTheFirstFailedCheck :
    Obligations.EveryCommandCompletesWithTheStatusOfTheFirstFailedCheck := by
  intro s t rest hr hw hin
  obtain ⟨s', hstep⟩ : ∃ s', step s = .next s' := by
    rw [step_command hin]; exact transact_completes (s := s.take rest) hr hw
  obtain ⟨e, r, rfl, hcase⟩ := command_next hin hstep
  refine ⟨_, r, hstep, rfl, rfl, ?_⟩
  rcases hcase with ⟨hd, -, rfl⟩ | ⟨p, hd, hp, -, rfl⟩ | ⟨hd, hp, -, rfl⟩ | ⟨hd, -, rfl⟩ | ⟨⟨p, hd⟩ | hd, hp, -, rfl⟩ |
    ⟨⟨err, hd⟩, -, rfl⟩ <;> simp [*, responseWord_status, Status.code]

/-- Settles O10: the fields of the six responses of `command_next`; the data is that of the engine FINALIZE leaves. -/
theorem responsesHaveTheirForm : Obligations.ResponsesHaveTheirForm := by
  intro s s' t rest hin hstep
  obtain ⟨e, r, rfl, hcase⟩ := command_next hin hstep
  refine ⟨r, rfl, ?_⟩
  rcases hcase with ⟨hd, -, rfl⟩ | ⟨p, hd, -, -, rfl⟩ | ⟨hd, -, rfl, rfl⟩ | ⟨hd, -, rfl⟩ | ⟨⟨p, hd⟩ | hd, -, -, rfl⟩ |
    ⟨⟨err, hd⟩, -, rfl⟩
  · simp [hd, responseWord_zero, responseWord_value]
  · simp [hd, responseWord_zero, responseWord_value]
  · refine ⟨responseWord_zero _ _, by simp [hd], fun _ => responseWord_value _ _, fun _ _ => ?_, ?_⟩
    · exact ⟨_, rfl, rfl, serialize_length _⟩
    · simp [hd, responseWord_status, Status.code]
  · simp [hd, responseWord_zero, responseWord_value]
  · simp [hd, responseWord_zero, responseWord_value]
  · simp [hd, responseWord_zero, responseWord_value, responseWord_status, Status.code]
  · simp [hd, responseWord_zero, responseWord_value]

end

section
/-! The pieces of a byte sequence that UPDATE_LONG sends (30_encoding.md rule R115). -/

namespace Sys2Proof.Machine

/-- `n` successive pieces of `c` bytes are the first `c·n` bytes. -/
theorem flatten_pieces (c n : Nat) (s : List Byte) :
    ((List.range n).map fun j => (s.drop (c * j)).take c).flatten = s.take (c * n) := by
  induction n with
  | zero => simp
  | succ n ih => simp [List.range_succ, ih, Nat.mul_succ, List.take_add]

theorem piecesOf_flatten {c : Nat} (hc : 0 < c) (s : List Byte) : (piecesOf c s).flatten = s := by
  have hdiv := Nat.div_add_mod (s.length + (c - 1)) c
  have hmod := Nat.mod_lt (s.length + (c - 1)) hc
  rw [piecesOf, flatten_pieces, List.take_of_length_le (by omega)]

theorem piecesOf_getElem? {c j : Nat} {s : List Byte} (hj : j < (piecesOf c s).length) :
    (piecesOf c s)[j]? = some ((s.drop (c * j)).take c) := by
  simp only [piecesOf, List.length_map, List.length_range] at hj
  simp [piecesOf, hj]

/-- Each piece has at least one byte and at most `c`. -/
theorem piecesOf_mem_length {c : Nat} (hc : 0 < c) {s p : List Byte} (hp : p ∈ piecesOf c s) :
    0 < p.length ∧ p.length ≤ c := by
  obtain ⟨j, hj, rfl⟩ := List.mem_map.1 hp
  have hstart : c * j < s.length := by
    have h := (Nat.le_div_iff_mul_le hc).1 (Nat.succ_le_of_lt (List.mem_range.1 hj))
    rw [Nat.succ_mul, Nat.mul_comm] at h
    omega
  rw [List.length_take, List.length_drop]
  omega

theorem longPayloads_nil : longPayloads [] = [[]] := rfl

theorem longPayloads_of_ne_nil {s : List Byte} (hs : s ≠ []) : longPayloads s = piecesOf maxPayload s := by
  simp [longPayloads, hs]

theorem maxPayload_pos : 0 < maxPayload := by decide

theorem longPayloads_flatten (s : List Byte) : (longPayloads s).flatten = s := by
  by_cases hs : s = []
  · rw [hs]; rfl
  · rw [longPayloads_of_ne_nil hs, piecesOf_flatten maxPayload_pos]

theorem longPayloads_wf {s p : List Byte} (hp : p ∈ longPayloads s) : (Instr.update p).wf = true := by
  by_cases hs : s = []
  · rw [hs, longPayloads_nil, List.mem_singleton] at hp
    rw [hp]; rfl
  · rw [longPayloads_of_ne_nil hs] at hp
    exact decide_eq_true (Nat.lt_of_le_of_lt (piecesOf_mem_length maxPayload_pos hp).2 (by decide))

theorem longPayloads_getElem? {s : List Byte} {j : Nat} (hj : j < (longPayloads s).length) :
    (longPayloads s)[j]? = some ((s.drop (maxPayload * j)).take maxPayload) := by
  by_cases hs : s = []
  · subst hs
    have hj : j < 1 := hj
    simp [longPayloads_nil, Nat.lt_one_iff.1 hj]
  · rw [longPayloads_of_ne_nil hs] at hj ⊢
    exact piecesOf_getElem? hj

theorem nil_notMem_longPayloads {s : List Byte} (hs : s ≠ []) : [] ∉ longPayloads s := by
  rw [longPayloads_of_ne_nil hs]
  intro h
  exact absurd (piecesOf_mem_length maxPayload_pos h).1 (Nat.lt_irrefl 0)

end Sys2Proof.Machine

end

section
/-! The engine state that stands for a message (40_update.md rule R138): what UPDATE and FINALIZE do to it. -/

namespace Sys2Proof.Machine

variable {v : Variant}

/-- The engine that has absorbed the message `m` since the last reset, and nothing else. -/
def Engine.ofMessage (v : Variant) (m : List Byte) : Engine v :=
  { H := compressStar (iv v) (blocksOf v m)
    buf := cellsOf (leftover v m)
    filled := BitVec.ofNat v.FW m.length
    length := BitVec.ofNat v.L m.length
    phase := .absorbing }

@[simp] theorem Engine.ofMessage_phase (m : List Byte) : (Engine.ofMessage v m).phase = .absorbing := rfl

@[simp] theorem Engine.ofMessage_H (m : List Byte) :
    (Engine.ofMessage v m).H = compressStar (iv v) (blocksOf v m) := rfl

@[simp] theorem Engine.ofMessage_filled (m : List Byte) :
    (Engine.ofMessage v m).filled.toNat = m.length % v.B := by
  simp [Engine.ofMessage, two_pow_FW]

@[simp] theorem Engine.ofMessage_length (m : List Byte) :
    (Engine.ofMessage v m).length.toNat = m.length % 2 ^ v.L := by
  simp [Engine.ofMessage]

theorem Engine.s0_eq_ofMessage : Engine.s0 v = Engine.ofMessage v [] := by
  have hlt : ([] : List Byte).length < v.B := Variant_B_pos v
  simp [Engine.ofMessage, Engine.s0, blocksOf_of_lt hlt, leftover_of_lt hlt, compressStar, cellsOf]

theorem Engine.ofMessage_startAbsorb (m : List Byte) :
    (Engine.ofMessage v m).startAbsorb = { AbsorbLoop.after (iv v) [] m with blocks := [] } := by
  simp only [Engine.startAbsorb, Engine.ofMessage_filled]
  rfl

/-- ABSORB of `p` after `m` is the absorption of `m ++ p`. -/
theorem absorb_ofMessage (m p : List Byte) : absorb (Engine.ofMessage v m) p = Engine.ofMessage v (m ++ p) := by
  obtain ⟨blks, hlog⟩ := AbsorbLoop.foldl_byte_log p (AbsorbLoop.after (iv v) [] m) []
  have hloop : absorbLoop (Engine.ofMessage v m) p = { AbsorbLoop.after (iv v) [] (m ++ p) with blocks := blks } := by
    rw [absorbLoop_eq, Engine.ofMessage_startAbsorb, hlog, AbsorbLoop.foldl_byte_after]
  have hfilled : BitVec.ofNat v.FW ((m ++ p).length % v.B) = BitVec.ofNat v.FW (m ++ p).length := by
    apply BitVec.eq_of_toNat_eq
    simp [two_pow_FW]
  simp only [absorb, hloop, AbsorbLoop.after, hfilled]
  simp [Engine.ofMessage, BitVec.ofNat_add]

/-- FINALIZE absorbs the padding of rule R232. -/
theorem padEngine_ofMessage (m : List Byte) :
    padEngine (Engine.ofMessage v m) = Engine.ofMessage v (pad v m) := by
  have hzeros : zeroCount v ((m ++ [0x80]).length % v.B) = (((v.B : Int) - v.Lf - 1 - m.length) % v.B).toNat := by
    rw [← zeroCount_mod m.length, ← zeroCount_succ (Nat.mod_lt m.length (Variant_B_pos v)), Nat.mod_add_mod,
      List.length_append, List.length_singleton]
  have hbits : (bitLength (Engine.ofMessage v m).length).toNat = (8 * m.length) % 2 ^ v.L := by
    rw [bitLength_toNat, Engine.ofMessage_length, Nat.mul_mod_mod]
  simp only [padEngine, absorb_ofMessage, hbits, Engine.ofMessage_filled, hzeros, pad, padding, List.append_assoc]

theorem length_sub_mod (m : List Byte) : m.length - m.length % v.B = v.B * (m.length / v.B) := by
  have := Nat.div_add_mod m.length v.B
  omega

theorem drop_whole_blocks (m : List Byte) : m.drop (m.length - m.length % v.B) = leftover v m := by
  rw [length_sub_mod, leftover]

theorem blocksOf_take_whole_blocks (m : List Byte) :
    blocksOf v (m.take (m.length - m.length % v.B)) = blocksOf v m := by
  have hmod : (m.take (m.length - m.length % v.B)).length % v.B = 0 := by
    rw [List.length_take, Nat.min_eq_left (Nat.sub_le _ _), length_sub_mod, Nat.mul_mod_right]
  have hsplit := blocksOf_append_whole (y := m.drop (m.length - m.length % v.B)) hmod
  have hlt : (leftover v m).length < v.B := by
    rw [leftover_length]
    exact Nat.mod_lt _ (Variant_B_pos v)
  rw [List.take_append_drop, drop_whole_blocks, blocksOf_of_lt hlt, List.append_nil] at hsplit
  exact hsplit.symm

/-- The relation of rule R138 holds of exactly one engine state. -/
theorem absorbed_iff_eq_ofMessage {e : Engine v} {m : List Byte} : Absorbed e m ↔ e = Engine.ofMessage v m := by
  constructor
  · rintro ⟨hphase, hlength, hfilled, hheld, hpending, hhash⟩
    have hbuf : e.buf = cellsOf (leftover v m) := by
      rw [← drop_whole_blocks, ← hfilled, ← hpending]
      exact eq_cellsOf hheld
    rw [hfilled, blocksOf_take_whole_blocks] at hhash
    have hf : e.filled = (Engine.ofMessage v m).filled :=
      BitVec.eq_of_toNat_eq (by rw [hfilled, Engine.ofMessage_filled])
    have hl : e.length = (Engine.ofMessage v m).length :=
      BitVec.eq_of_toNat_eq (by rw [hlength, Engine.ofMessage_length])
    obtain ⟨H, buf, filled, length, phase⟩ := e
    simp only at hphase hbuf hhash hf hl
    rw [hphase, hbuf, hhash, hf, hl]
    rfl
  · rintro rfl
    refine ⟨rfl, Engine.ofMessage_length m, Engine.ofMessage_filled m, ?_, ?_, ?_⟩
    · rw [Engine.ofMessage_filled, ← leftover_length]
      exact cellsOf_keys _
    · rw [Engine.pending, Engine.ofMessage_filled, drop_whole_blocks, ← leftover_length]
      exact memRead_cellsOf _
    · rw [Engine.ofMessage_filled, blocksOf_take_whole_blocks, Engine.ofMessage_H]

end Sys2Proof.Machine

end

section
/-! A run of the encodings of commands, presented one after another: RESET, UPDATEs and FINALIZE answer the digest of the
concatenated payloads (42_finalize.md rule R232). -/

namespace Sys2Proof.Machine

theorem decode_encode (i : Instr) : decode (encode i) = .ok i := by
  cases i <;> simp [decode_eq, encode, rsvField_commandWord, opField_commandWord, nField_commandWord]

theorem encode_wf {i : Instr} (h : i.wf = true) : (encode i).wf = true := by
  cases i with
  | reset => exact (Laws.EncodedFields.reset h).1
  | update p => exact (Laws.EncodedFields.update p h).1
  | finalize => exact (Laws.EncodedFields.finalize h).1
  | qsize => exact (Laws.EncodedFields.qsize h).1

/-- A well-formed command presented first runs at the state that has the others still presented. -/
theorem step_presentAll_encode {s : State} {i : Instr} (hr : s.ready = true) (hi : i.wf = true)
    (ts : List Transaction) : step (s.presentAll (encode i :: ts)) = exec i (s.presentAll ts) := by
  rw [step_command (s := s.presentAll (encode i :: ts)) rfl]
  exact transact_ok hr (encode_wf hi) (decode_encode i)

/-- The state `s` with its engine holding the message `m`, and the responses `given` added to those of `s`. -/
def State.afterMessage (s : State) (m : List Byte) (given : List Response) : State :=
  { s with engine := Engine.ofMessage s.variant m, outbox := s.outbox ++ given }

theorem step_encode_reset {s : State} (hr : s.ready = true) (ts : List Transaction) :
    step (s.presentAll (encode .reset :: ts)) = .next ((s.afterMessage [] [okResponse]).presentAll ts) := by
  rw [step_presentAll_encode hr rfl]
  refine (execReset_eq (s.presentAll ts)).trans ?_
  rw [Engine.s0_eq_ofMessage]
  rfl

theorem step_encode_update {s : State} (hr : s.ready = true) (m : List Byte) (given : List Response) {p : List Byte}
    (hp : (Instr.update p).wf = true) (ts : List Transaction) :
    step ((s.afterMessage m given).presentAll (encode (.update p) :: ts)) =
      .next ((s.afterMessage (m ++ p) (given ++ [okResponse])).presentAll ts) := by
  rw [step_presentAll_encode (s := s.afterMessage m given) hr hp]
  refine (execUpdate_absorbing (s := (s.afterMessage m given).presentAll ts) rfl p).trans ?_
  simp only [State.presentAll, State.afterMessage, absorb_ofMessage, List.append_assoc]

/-- FINALIZE answers the digest of the message absorbed. -/
theorem step_encode_finalize {s : State} (hr : s.ready = true) (m : List Byte) (given : List Response)
    (ts : List Transaction) :
    ∃ t : State, step ((s.afterMessage m given).presentAll (encode .finalize :: ts)) = .next t ∧
      t.inbox = ts.map (HostEvent.command .idle) ++ s.inbox ∧
      t.outbox = s.outbox ++ given ++ [{ rw := 0x00000000, dout := digest s.variant m }] := by
  rw [step_presentAll_encode (s := s.afterMessage m given) hr rfl]
  refine ⟨_, execFinalize_absorbing (s := (s.afterMessage m given).presentAll ts) rfl, rfl, ?_⟩
  have hH : (padEngine ((s.afterMessage m given).presentAll ts).engine).H =
      (Engine.ofMessage s.variant (pad s.variant m)).H :=
    congrArg Engine.H (padEngine_ofMessage m)
  have hrw : responseWord .ok 0 = 0x00000000 := congrArg Response.rw okResponse_eq
  rw [hH, hrw]
  rfl

theorem run_encode_updates {s : State} (hr : s.ready = true) (m : List Byte) (given : List Response)
    (pieces : List (List Byte)) (hp : ∀ p ∈ pieces, (Instr.update p).wf = true) (ts : List Transaction) :
    Host.Core.run Sys2Proof.core pieces.length
        ((s.afterMessage m given).presentAll (pieces.map (fun p => encode (.update p)) ++ ts)) =
      .next ((s.afterMessage (m ++ pieces.flatten)
        (given ++ List.replicate pieces.length okResponse)).presentAll ts) := by
  induction pieces generalizing m given with
  | nil => simp [run_zero]
  | cons p pieces ih =>
    obtain ⟨hp, hps⟩ := List.forall_mem_cons.1 hp
    have hstep := step_encode_update hr m given hp (pieces.map (fun p => encode (.update p)) ++ ts)
    refine (run_next pieces.length hstep).trans ((ih _ _ hps).trans ?_)
    simp [List.replicate_succ]

/-- Rule R232 from any ready state, with every response and what is left presented. -/
theorem run_reset_updates_finalize {s : State} (hr : s.ready = true) (pieces : List (List Byte))
    (hp : ∀ p ∈ pieces, (Instr.update p).wf = true) :
    ∃ t : State,
      Host.Core.run Sys2Proof.core (pieces.length + 2)
        (s.presentAll (encode .reset :: pieces.map (fun p => encode (.update p)) ++ [encode .finalize])) = .next t ∧
      t.inbox = s.inbox ∧
      t.outbox = s.outbox ++ List.replicate (pieces.length + 1) { rw := 0x00000000, dout := [] } ++
        [{ rw := 0x00000000, dout := digest s.variant pieces.flatten }] := by
  have hfirst := step_encode_reset hr (pieces.map (fun p => encode (.update p)) ++ [encode .finalize])
  have hupdates := run_encode_updates hr [] [okResponse] pieces hp [encode .finalize]
  obtain ⟨t, hlast, hin, hout⟩ := step_encode_finalize hr ([] ++ pieces.flatten)
    ([okResponse] ++ List.replicate pieces.length okResponse) []
  refine ⟨t, ?_, hin, ?_⟩
  · exact (run_next (pieces.length + 1) hfirst).trans ((run_add hupdates 1).trans (run_next 0 hlast))
  · rw [hout, okResponse_eq, List.replicate_succ]
    rfl

end Sys2Proof.Machine

open Sys2Proof Sys2Proof.Machine

/-- Settles O46: the pieces cut the sequence up, and HASH is the run of rule R232 over them. -/
theorem pseudoCommandsExpand : Obligations.PseudoCommandsExpand := by
  refine ⟨fun s => ⟨rfl, rfl, longPayloads_flatten s, fun p => longPayloads_wf, fun j => longPayloads_getElem?,
    nil_notMem_longPayloads, ?_⟩, fun s m hr => ?_⟩
  · rintro rfl
    exact longPayloads_nil
  · obtain ⟨t, hrun, -, hout⟩ := run_reset_updates_finalize hr (longPayloads m) (fun p => longPayloads_wf)
    rw [longPayloads_flatten] at hout
    refine ⟨t, ?_, by rw [hout, List.getLast?_concat]⟩
    simpa [PseudoCommand.expand, Function.comp_def] using hrun

end

section
/-! ABSORB and UPDATE (40_update.md rules R133 to R136 and R139): what the absorption of a byte sequence leaves, and
UPDATE in phase `ABSORBING`. -/

namespace Sys2Proof.Machine

variable {v : Variant}

theorem exec_update_absorbing {s : State} (h : s.engine.phase = .absorbing) (p : List Byte) :
    exec (.update p) s =
      .next { s with engine := absorb s.engine p, outbox := s.outbox ++ [{ rw := 0x00000000, dout := [] }] } := by
  rw [← okResponse_eq]
  exact execUpdate_absorbing h p

theorem absorb_nil (e : Engine v) : absorb e [] = e := by
  simp [absorb, absorbLoop, AbsorbLoop.run, Engine.startAbsorb]

theorem absorb_length_toNat (e : Engine v) (s : List Byte) :
    (absorb e s).length.toNat = (e.length.toNat + s.length) % 2 ^ v.L := by
  rw [absorb_length, BitVec.toNat_add, BitVec.toNat_ofNat, Nat.add_mod_mod]

/-- The loop of ABSORB does not read `LENGTH`. -/
theorem absorb_with_length (e : Engine v) (x : BitVec v.L) (s : List Byte) :
    absorb { e with length := x } s = { absorb e s with length := x + BitVec.ofNat v.L s.length } := rfl

theorem absorb_filled_eq_mod (e : Engine v) (s : List Byte) :
    (absorb e s).filled.toNat = (e.filled.toNat + s.length) % v.B := by
  rw [absorb_filled_toNat, absorbLoop_eq]
  exact (AbsorbLoop.foldl_byte_counts s (filled_lt e)).1

section Held

variable {e : Engine v} (held : e.buf.map Prod.fst = List.range e.filled.toNat)
include held

/-- Below `FILLED` every byte is a written one, so no call of COMPRESS sees a stale byte (rule R139). -/
theorem read_buf_eq_pending (j : Nat) : e.buf.read j = e.pending[j]? := by
  have hbuf : e.buf = cellsOf e.pending := eq_cellsOf held
  rw [hbuf, read_cellsOf]

theorem absorbBlocks_eq_blocksOf (s : List Byte) : absorbBlocks e s = blocksOf v (e.pending ++ s) := by
  rw [absorbBlocks, absorbLoop_after held]
  exact List.nil_append _

theorem absorb_H_eq_compressStar (s : List Byte) :
    (absorb e s).H = compressStar e.H (blocksOf v (e.pending ++ s)) :=
  congrArg AbsorbLoop.H (absorbLoop_after held s)

theorem absorb_buf_eq_cellsOf (s : List Byte) : (absorb e s).buf = cellsOf (leftover v (e.pending ++ s)) :=
  congrArg AbsorbLoop.buf (absorbLoop_after held s)

end Held

theorem blocksOf_getElem? {s : List Byte} {j : Nat} (hj : j < s.length / v.B) :
    (blocksOf v s)[j]? = some ((s.drop (v.B * j)).take v.B) := by
  simp [blocksOf, hj]

theorem leftover_getElem? (s : List Byte) (j : Nat) : (leftover v s)[j]? = s[s.length - s.length % v.B + j]? := by
  rw [← drop_whole_blocks, List.getElem?_drop]

theorem pending_append_length (e : Engine v) (s : List Byte) :
    (e.pending ++ s).length = e.filled.toNat + s.length := by
  rw [List.length_append, Engine.pending_length]

end Sys2Proof.Machine

open Sys2Proof Sys2Proof.Machine

/-- Settles O29: the calls are the whole blocks of the pending bytes followed by the new ones. -/
theorem absorbCompressesTheWholeBlocksInOrder : Obligations.AbsorbCompressesTheWholeBlocksInOrder := by
  rintro v e s ⟨held, -⟩
  rw [absorbBlocks_eq_blocksOf held, ← pending_append_length]
  exact ⟨blocksOf_length v _, fun j => blocksOf_getElem?, fun j _ => read_buf_eq_pending held j,
    absorb_H_eq_compressStar held s⟩

/-- Settles O30: the buffer is left with the bytes after the last whole block, from index 0 on. -/
theorem absorbLeavesTheRemainderBuffered : Obligations.AbsorbLeavesTheRemainderBuffered := by
  rintro v e s ⟨held, -⟩
  refine ⟨absorb_filled_eq_mod e s, fun j _ => ?_, absorb_length_toNat e s⟩
  rw [absorb_buf_eq_cellsOf held, read_cellsOf, leftover_getElem?, pending_append_length]

/-- Settles O31: the loop of the empty sequence makes no pass, and `LENGTH` grows by 0. -/
theorem emptyUpdateIsAcceptedAndChangesNothing : Obligations.EmptyUpdateIsAcceptedAndChangesNothing := by
  refine ⟨fun _ => absorb_nil, fun s h => ?_⟩
  rw [exec_update_absorbing h, absorb_nil]

/-- Settles O34: `LENGTH` is added to and never read, so UPDATE answers the same from every value of it. -/
theorem lengthWrapsAndNothingElseDependsOnIt : Obligations.LengthWrapsAndNothingElseDependsOnIt := by
  refine ⟨fun _ => absorb_length_toNat, fun _ => absorb_with_length, fun s p x h => ?_⟩
  have hphase : ({ s.engine with length := x } : Engine s.variant).phase = .absorbing := h
  exact ⟨_, exec_update_absorbing (s := { s with engine := { s.engine with length := x } }) hphase p⟩

end

section
/-! The word functions of COMPRESS (41_compression.md rules R161 to R168): what they do bit by bit, and the rotations as
those of the library. -/

namespace Sys2Proof.Machine

variable {v : Variant}

theorem rotr_eq_rotateRight {n : Nat} (hn : n < v.W) (x : Word v) : rotr n x = x.rotateRight n :=
  (BitVec.rotateRight_eq_rotateRightAux_of_lt hn).symm

theorem getLsbD_rotr {n i : Nat} (hn : n < v.W) (hi : i < v.W) (x : Word v) :
    (rotr n x).getLsbD i = x.getLsbD ((i + n) % v.W) := by
  rw [rotr_eq_rotateRight hn, BitVec.getLsbD_rotateRight_of_lt hn]
  by_cases hwrap : i < v.W - n
  · rw [Nat.mod_eq_of_lt (by omega), Nat.add_comm i n]
    simp [hwrap]
  · have hmod : (i + n) % v.W = i - (v.W - n) := by
      rw [Nat.mod_eq_sub_mod (by omega), Nat.mod_eq_of_lt (by omega)]
      omega
    simp [hwrap, hi, hmod]

/-- Past the top bit a word reads as `false`, so no case split is needed. -/
theorem getLsbD_shr (n i : Nat) (x : Word v) : (shr n x).getLsbD i = x.getLsbD (i + n) := by
  rw [shr, BitVec.getLsbD_ushiftRight, Nat.add_comm]

theorem getLsbD_ch {i : Nat} (hi : i < v.W) (x y z : Word v) :
    (ch x y z).getLsbD i = if x.getLsbD i then y.getLsbD i else z.getLsbD i := by
  simp only [ch, BitVec.getLsbD_xor, BitVec.getLsbD_and, BitVec.getLsbD_not, hi, decide_true, Bool.true_and]
  cases x.getLsbD i <;> simp

theorem getLsbD_maj (i : Nat) (x y z : Word v) : (maj x y z).getLsbD i =
    decide (2 ≤ (x.getLsbD i).toNat + (y.getLsbD i).toNat + (z.getLsbD i).toNat) := by
  rw [maj, BitVec.getLsbD_xor, BitVec.getLsbD_xor, BitVec.getLsbD_and, BitVec.getLsbD_and, BitVec.getLsbD_and]
  generalize x.getLsbD i = a, y.getLsbD i = b, z.getLsbD i = c
  revert a b c
  decide

/-- Rule R168: the two terms of `Ch` never have a 1 in the same bit. -/
theorem ch_eq_or (x y z : Word v) : ch x y z = (x &&& y) ||| (~~~x &&& z) := by
  apply BitVec.eq_of_getLsbD_eq
  intro i hi
  simp only [getLsbD_ch hi, BitVec.getLsbD_or, BitVec.getLsbD_and, BitVec.getLsbD_not, hi, decide_true, Bool.true_and]
  cases x.getLsbD i <;> simp

theorem maj_eq_or (x y z : Word v) : maj x y z = (x &&& y) ||| (x &&& z) ||| (y &&& z) := by
  apply BitVec.eq_of_getLsbD_eq
  intro i _
  rw [getLsbD_maj, BitVec.getLsbD_or, BitVec.getLsbD_or, BitVec.getLsbD_and, BitVec.getLsbD_and, BitVec.getLsbD_and]
  generalize x.getLsbD i = a, y.getLsbD i = b, z.getLsbD i = c
  revert a b c
  decide

/-- The twelve amounts of a variant (rule R166). -/
def RotationAmounts.toList (r : RotationAmounts) : List Nat :=
  [r.a0, r.a1, r.a2, r.b0, r.b1, r.b2, r.c0, r.c1, r.c2, r.d0, r.d1, r.d2]

theorem rotationAmounts_inRange (v : Variant) : ∀ n ∈ (rotationAmounts v).toList, 0 < n ∧ n < v.W := by
  cases v <;> decide

theorem rotr_amount {n : Nat} (hn : n ∈ (rotationAmounts v).toList) (x : Word v) : rotr n x = x.rotateRight n :=
  rotr_eq_rotateRight (rotationAmounts_inRange v n hn).2 x

theorem bigSigma0_eq (x : Word v) : bigSigma0 x = x.rotateRight (rotationAmounts v).a0 ^^^
    x.rotateRight (rotationAmounts v).a1 ^^^ x.rotateRight (rotationAmounts v).a2 := by
  rw [bigSigma0, rotr_amount, rotr_amount, rotr_amount] <;> simp [RotationAmounts.toList]

theorem bigSigma1_eq (x : Word v) : bigSigma1 x = x.rotateRight (rotationAmounts v).b0 ^^^
    x.rotateRight (rotationAmounts v).b1 ^^^ x.rotateRight (rotationAmounts v).b2 := by
  rw [bigSigma1, rotr_amount, rotr_amount, rotr_amount] <;> simp [RotationAmounts.toList]

theorem smallSigma0_eq (x : Word v) : smallSigma0 x = x.rotateRight (rotationAmounts v).c0 ^^^
    x.rotateRight (rotationAmounts v).c1 ^^^ shr (rotationAmounts v).c2 x := by
  rw [smallSigma0, rotr_amount, rotr_amount] <;> simp [RotationAmounts.toList]

theorem smallSigma1_eq (x : Word v) : smallSigma1 x = x.rotateRight (rotationAmounts v).d0 ^^^
    x.rotateRight (rotationAmounts v).d1 ^^^ shr (rotationAmounts v).d2 x := by
  rw [smallSigma1, rotr_amount, rotr_amount] <;> simp [RotationAmounts.toList]

theorem rotateRight_zero_word (w n : Nat) : (0 : BitVec w).rotateRight n = 0 := by
  simp [BitVec.rotateRight_def]

theorem shr_zero_word (n : Nat) : shr n (0 : Word v) = 0 := by
  simp [shr]

theorem rotateRight_allOnes (w n : Nat) : (BitVec.allOnes w).rotateRight n = BitVec.allOnes w := by
  apply BitVec.eq_of_getLsbD_eq
  intro i hi
  rw [BitVec.getLsbD_rotateRight]
  by_cases h : i < w - n % w
  · have : n % w + i < w := by omega
    simp [h, this, hi]
  · have : i - (w - n % w) < w := by omega
    simp [h, this, hi]

end Sys2Proof.Machine

open Sys2Proof Sys2Proof.Machine

/-- Settles O49: the formulas are the definitions, and the bits are those of the library's rotation and shift. -/
theorem rotationAndShiftMoveBits : Obligations.RotationAndShiftMoveBits := by
  refine fun v n x _ hn => ⟨rfl, rfl, fun i hi => ⟨getLsbD_rotr hn hi x, ?_⟩⟩
  rw [getLsbD_shr]
  split
  · rfl
  · exact BitVec.getLsbD_of_ge x _ (by omega)

/-- Settles O50: bit by bit, each form is the same function of three bits. -/
theorem chChoosesAndMajTakesTheMajority : Obligations.ChChoosesAndMajTakesTheMajority :=
  fun _ x y z => ⟨fun i hi => ⟨getLsbD_ch hi x y z, getLsbD_maj i x y z⟩, rfl, rfl, ch_eq_or x y z, maj_eq_or x y z⟩

/-- Settles O51: the four equations at the amounts of each variant. -/
theorem sigmaFunctionsRotateByTheirAmounts : Obligations.SigmaFunctionsRotateByTheirAmounts :=
  ⟨fun x => ⟨bigSigma0_eq x, bigSigma1_eq x, smallSigma0_eq x, smallSigma1_eq x⟩,
    fun x => ⟨bigSigma0_eq x, bigSigma1_eq x, smallSigma0_eq x, smallSigma1_eq x⟩⟩

/-- Settles O52: a rotation keeps zero and all-ones, and the exclusive or of two equal terms is 0. -/
theorem sigmaFunctionsOnZeroAndAllOnes : Obligations.SigmaFunctionsOnZeroAndAllOnes := by
  intro v
  refine ⟨rotationAmounts_inRange v, ?_⟩
  simp only [bigSigma0_eq, bigSigma1_eq, smallSigma0_eq, smallSigma1_eq, rotateRight_zero_word, shr_zero_word,
    rotateRight_allOnes, BitVec.xor_self, BitVec.zero_xor, and_self]

end

section
/-! The block parse (41_compression.md rule R175): the bytes of a block in the words made of them. -/

namespace Sys2Proof.Machine

theorem two_pow_byte_succ (n : Nat) : 2 ^ (8 * (n + 1)) = 256 * 2 ^ (8 * n) := by
  rw [Nat.mul_succ, Nat.pow_add, Nat.mul_comm]

theorem foldl_be_start (s : List Byte) (n : Nat) :
    s.foldl (fun acc b => acc * 256 + b.toNat) n = n * 2 ^ (8 * s.length) + beNat s := by
  induction s generalizing n with
  | nil => simp [beNat]
  | cons b s ih =>
    have hb : beNat (b :: s) = b.toNat * 2 ^ (8 * s.length) + beNat s := by
      rw [beNat, List.foldl_cons, ih, Nat.zero_mul, Nat.zero_add]
    rw [List.foldl_cons, ih, hb, List.length_cons, two_pow_byte_succ]
    ring

theorem beNat_append (s t : List Byte) : beNat (s ++ t) = beNat s * 2 ^ (8 * t.length) + beNat t := by
  rw [beNat, List.foldl_append, foldl_be_start]
  rfl

theorem beNat_cons (b : Byte) (s : List Byte) : beNat (b :: s) = b.toNat * 2 ^ (8 * s.length) + beNat s := by
  rw [← List.singleton_append, beNat_append]
  simp [beNat]

theorem beNat_lt (s : List Byte) : beNat s < 2 ^ (8 * s.length) := by
  induction s with
  | nil => simp [beNat]
  | cons b s ih =>
    have hb : b.toNat + 1 ≤ 256 := b.isLt
    calc beNat (b :: s) = b.toNat * 2 ^ (8 * s.length) + beNat s := beNat_cons b s
      _ < (b.toNat + 1) * 2 ^ (8 * s.length) := by rw [Nat.add_mul, Nat.one_mul]; exact Nat.add_lt_add_left ih _
      _ ≤ 256 * 2 ^ (8 * s.length) := Nat.mul_le_mul_right _ hb
      _ = 2 ^ (8 * (b :: s).length) := (two_pow_byte_succ _).symm

/-- Byte `j` of a sequence stands above the bytes after it. -/
theorem beNat_byte {s : List Byte} {j : Nat} (hj : j < s.length) :
    beNat s / 2 ^ (8 * (s.length - 1 - j)) % 256 = s[j].toNat := by
  have hlow := beNat_lt (s.drop (j + 1))
  have hsplit : beNat s = (beNat (s.take j) * 256 + s[j].toNat) * 2 ^ (8 * (s.drop (j + 1)).length) +
      beNat (s.drop (j + 1)) := by
    conv_lhs => rw [← List.take_append_drop j s, List.drop_eq_getElem_cons hj, beNat_append, beNat_cons]
    rw [List.length_cons, two_pow_byte_succ]
    ring
  have hlen : s.length - 1 - j = (s.drop (j + 1)).length := by
    rw [List.length_drop]
    omega
  rw [hlen, hsplit, Nat.mul_comm, Nat.mul_add_div (Nat.two_pow_pos _), Nat.div_eq_of_lt hlow, Nat.add_zero,
    Nat.mul_add_mod', Nat.mod_eq_of_lt s[j].isLt]

variable {v : Variant}

theorem Variant_W_eq (v : Variant) : v.W = 8 * v.NB := by cases v <;> rfl

theorem Variant_B_eq (v : Variant) : v.B = v.NB * 16 := by cases v <;> rfl

/-- Byte `j` of a word, most significant first, is byte `j` of the sequence it was made of. -/
theorem extractLsb'_beWord {s : List Byte} (hs : s.length = v.NB) {j : Nat} (hj : j < s.length) :
    (beWord v s).extractLsb' (v.W - 8 - 8 * j) 8 = s[j] := by
  have hfit : beNat s < 2 ^ v.W := by rw [Variant_W_eq, ← hs]; exact beNat_lt s
  have hpos : v.W - 8 - 8 * j = 8 * (s.length - 1 - j) := by rw [Variant_W_eq, hs]; omega
  apply BitVec.eq_of_toNat_eq
  rw [BitVec.extractLsb'_toNat, beWord, BitVec.toNat_ofNat, Nat.mod_eq_of_lt hfit, Nat.shiftRight_eq_div_pow, hpos]
  exact beNat_byte hj

@[simp] theorem parseBlock_length (v : Variant) (blk : List Byte) : (parseBlock v blk).length = 16 := by
  simp [parseBlock]

theorem parseBlock_getElem? (blk : List Byte) {t : Nat} (ht : t < 16) :
    (parseBlock v blk)[t]? = some (beWord v ((blk.drop (v.NB * t)).take v.NB)) := by
  simp [parseBlock, ht]

/-- The bytes of word `t` are all in the block. -/
theorem wordBytes_length {blk : List Byte} (hblk : blk.length = v.B) {t : Nat} (ht : t < 16) :
    ((blk.drop (v.NB * t)).take v.NB).length = v.NB := by
  have hend : v.NB * (t + 1) ≤ blk.length := by
    rw [hblk, Variant_B_eq]
    exact Nat.mul_le_mul_left _ ht
  rw [List.length_take, List.length_drop]
  rw [Nat.mul_succ] at hend
  omega

end Sys2Proof.Machine

open Sys2Proof Sys2Proof.Machine

/-- Settles O54: word `t` is made of the `NB` bytes from `NB·t` on, and a byte keeps its place in it. -/
theorem blockWordsAreBigEndian : Obligations.BlockWordsAreBigEndian := by
  refine fun v blk hblk => ⟨parseBlock_length v blk, fun t ht => ⟨_, parseBlock_getElem? blk ht, fun j hj => ?_⟩⟩
  have hlen := wordBytes_length hblk ht
  rw [← hlen] at hj
  rw [extractLsb'_beWord hlen hj, ← List.getElem?_eq_getElem hj, List.getElem?_take_of_lt (hlen ▸ hj),
    List.getElem?_drop]

end

section
/-! The message schedule and the rounds of COMPRESS (41_compression.md rules R176 to R180). -/

namespace Sys2Proof.Machine

variable {v : Variant}

theorem getElem?_eq_some_getD {α : Type} {l : List α} {t : Nat} (h : t < l.length) (d : α) :
    l[t]? = some (l.getD t d) := by
  simp [h]

@[simp] theorem schedule_length (v : Variant) (blk : List Byte) : (schedule v blk).length = v.R := by
  rw [schedule, extendSchedule_length, parseBlock_length]
  cases v <;> rfl

theorem schedule_getElem?_of_lt (blk : List Byte) {t : Nat} (ht : t < 16) :
    (schedule v blk)[t]? = (parseBlock v blk)[t]? :=
  extendSchedule_prefix _ _ t (by rwa [parseBlock_length])

theorem extendSchedule_take (n : Nat) (ws : List (Word v)) : (extendSchedule n ws).take ws.length = ws := by
  apply List.ext_getElem?
  intro t
  rw [List.getElem?_take]
  split
  · next h => exact extendSchedule_prefix n ws t h
  · next h => rw [List.getElem?_eq_none (by omega)]

/-- A word that the extension adds is the next word after all those before it. -/
theorem extendSchedule_getElem? (n : Nat) (ws : List (Word v)) {t : Nat} (hge : ws.length ≤ t)
    (hlt : t < ws.length + n) :
    (extendSchedule n ws)[t]? = some (nextScheduleWord ((extendSchedule n ws).take t)) := by
  induction n generalizing ws with
  | zero => omega
  | succ n ih =>
    have hlen : (ws ++ [nextScheduleWord ws]).length = ws.length + 1 := by simp
    rw [extendSchedule]
    rcases hge.eq_or_lt with rfl | hgt
    · have htake := congrArg (List.take ws.length) (extendSchedule_take n (ws ++ [nextScheduleWord ws]))
      rw [hlen, List.take_take, Nat.min_eq_left (Nat.le_succ _), List.take_left] at htake
      rw [htake, extendSchedule_prefix _ _ _ (by omega), List.getElem?_concat_length]
    · exact ih _ (by omega) (by omega)

/-- The recurrence of rule R176, on the first `t` words of a longer list. -/
theorem nextScheduleWord_take {ws : List (Word v)} {t : Nat} (h16 : 16 ≤ t) (ht : t ≤ ws.length) :
    nextScheduleWord (ws.take t) = ws.getD (t - 16) 0 + smallSigma0 (ws.getD (t - 15) 0) + ws.getD (t - 7) 0 +
      smallSigma1 (ws.getD (t - 2) 0) := by
  have hget (k : Nat) (hk : 0 < k) : (ws.take t).getD (t - k) 0 = ws.getD (t - k) 0 := by
    rw [List.getD_eq_getElem?_getD, List.getElem?_take_of_lt (by omega), List.getD_eq_getElem?_getD]
  rw [nextScheduleWord, List.length_take, Nat.min_eq_left ht]
  simp only [hget 16 (by decide), hget 15 (by decide), hget 7 (by decide), hget 2 (by decide)]

theorem roundConstants_length (v : Variant) : (roundConstants v).length = v.R := by cases v <;> rfl

/-- The working variables after the first `t` rounds. -/
def varsAfter (ws : List (Word v)) (x : WorkingVars v) (t : Nat) : WorkingVars v :=
  (((roundConstants v).zip ws).take t).foldl roundStep x

theorem varsAfter_succ {ws : List (Word v)} (hws : ws.length = v.R) (x : WorkingVars v) {t : Nat} (ht : t < v.R) :
    varsAfter ws x (t + 1) = roundStep (varsAfter ws x t) ((roundConstants v).getD t 0, ws.getD t 0) := by
  have hpair : ((roundConstants v).zip ws)[t]? = some ((roundConstants v).getD t 0, ws.getD t 0) :=
    List.getElem?_zip_eq_some.2 ⟨getElem?_eq_some_getD (by rwa [roundConstants_length]) 0,
      getElem?_eq_some_getD (by rwa [hws]) 0⟩
  rw [varsAfter, List.take_add_one, hpair, List.foldl_append]
  rfl

theorem varsAfter_R {ws : List (Word v)} (hws : ws.length = v.R) (x : WorkingVars v) :
    varsAfter ws x v.R = rounds ws x := by
  rw [varsAfter, List.take_of_length_le, rounds]
  rw [List.length_zip, roundConstants_length, hws, Nat.min_self]

theorem compress_eq_varsAfter (H : Vector (Word v) 8) (blk : List Byte) :
    compress H blk = addVars H (varsAfter (schedule v blk) (seedVars H) v.R) := by
  rw [varsAfter_R (schedule_length v blk), compress]

end Sys2Proof.Machine

open Sys2Proof Sys2Proof.Machine

/-- Settles O47: each word the schedule adds to the block's is the next one after those before it. -/
theorem scheduleFollowsTheRecurrence : Obligations.ScheduleFollowsTheRecurrence := by
  refine fun v blk => ⟨schedule_length v blk, fun t ht => schedule_getElem?_of_lt blk ht, fun t h16 ht => ?_⟩
  rw [← nextScheduleWord_take h16 (by rw [schedule_length]; exact ht.le)]
  exact extendSchedule_getElem? _ _ (by rwa [parseBlock_length]) (by rw [parseBlock_length]; omega)

/-- Settles O48: `x t` is what the first `t` rounds leave. -/
theorem compressRunsTheRoundsInOrder : Obligations.CompressRunsTheRoundsInOrder := by
  intro v H blk
  refine ⟨varsAfter (schedule v blk) (seedVars H), rfl, fun t ht => ⟨_, _, rfl, rfl, ?_⟩,
    compress_eq_varsAfter H blk⟩
  exact varsAfter_succ (schedule_length v blk) _ ht

end

section
/-! The round constants (41_compression.md rules R170, R172 and R173) and the cube roots of the first 80 primes. -/

namespace Sys2Proof.Machine

/-- The first 80 primes, as rules R172 and R173 list them. -/
def firstPrimes : List Nat :=
  [2, 3, 5, 7, 11, 13, 17, 19, 23, 29, 31, 37, 41, 43, 47, 53, 59, 61, 67, 71, 73, 79, 83, 89, 97, 101, 103, 107, 109,
   113, 127, 131, 137, 139, 149, 151, 157, 163, 167, 173, 179, 181, 191, 193, 197, 199, 211, 223, 227, 229, 233, 239,
   241, 251, 257, 263, 269, 271, 277, 281, 283, 293, 307, 311, 313, 317, 331, 337, 347, 349, 353, 359, 367, 373, 379,
   383, 389, 397, 401, 409]

theorem smallPrimes_eq_firstPrimes : smallPrimes = firstPrimes := by decide +kernel

/-- The cube root of prime `t` with `W` fractional bits: its integer part above the bits of `K_t`. -/
def cubeRoot (v : Variant) (t : Nat) : Nat :=
  2 ^ v.W * Nat.nthRoot 3 (firstPrimes.getD t 0) + ((roundConstants v).getD t 0).toNat

/-- `cubeRoot` is the integer cube root of `p_t · 2^(3W)`. -/
theorem cubeRoot_isCubeRoot (v : Variant) : ∀ t < v.R,
    cubeRoot v t ^ 3 ≤ firstPrimes.getD t 0 * 2 ^ (3 * v.W) ∧
    firstPrimes.getD t 0 * 2 ^ (3 * v.W) < (cubeRoot v t + 1) ^ 3 := by
  cases v <;> decide +kernel

/-- Modulo `2^W` only the fractional bits of the root are left. -/
theorem ofNat_cubeRoot (v : Variant) (t : Nat) : BitVec.ofNat v.W (cubeRoot v t) = (roundConstants v).getD t 0 := by
  apply BitVec.eq_of_toNat_eq
  rw [BitVec.toNat_ofNat, cubeRoot, Nat.mul_add_mod, Nat.mod_eq_of_lt (BitVec.isLt _)]

theorem R_le_firstPrimes_length (v : Variant) : v.R ≤ firstPrimes.length := by cases v <;> decide

end Sys2Proof.Machine

open Sys2Proof Sys2Proof.Machine

/-- Settles O55: `cubeRoot` is the integer cube root, and its low `W` bits are the word of the table. -/
theorem roundConstantsAreCubeRootsOfPrimes : Obligations.RoundConstantsAreCubeRootsOfPrimes := by
  refine fun v => ⟨roundConstants_length v, fun t ht => ?_⟩
  obtain ⟨hle, hlt⟩ := cubeRoot_isCubeRoot v t ht
  refine ⟨firstPrimes.getD t 0, cubeRoot v t, ?_, hle, hlt, ?_⟩
  · rw [smallPrimes_eq_firstPrimes]
    exact getElem?_eq_some_getD (ht.trans_le (R_le_firstPrimes_length v)) 0
  · rw [ofNat_cubeRoot]
    exact getElem?_eq_some_getD (by rwa [roundConstants_length]) 0

end

section
/-! The padding of FINALIZE (42_finalize.md rules R222 to R225, R228 and R230): its length, and the three padding steps as
the absorption of one byte sequence. -/

namespace Sys2Proof.Machine

variable {v : Variant}

/-- The loop body only adds to the call log: whatever stands before it stays there, and nothing else depends on it. -/
theorem AbsorbLoop.byte_append_log (l : AbsorbLoop v) (blks : List (List Byte)) (b : Byte) :
    ({ l with blocks := blks ++ l.blocks } : AbsorbLoop v).byte b =
      { l.byte b with blocks := blks ++ (l.byte b).blocks } := by
  by_cases h : l.f + 1 = v.B <;> simp [AbsorbLoop.byte, AbsorbLoop.drain, AbsorbLoop.copy, h]

theorem AbsorbLoop.foldl_byte_append_log (s : List Byte) (l : AbsorbLoop v) (blks : List (List Byte)) :
    s.foldl AbsorbLoop.byte { l with blocks := blks ++ l.blocks } =
      { s.foldl AbsorbLoop.byte l with blocks := blks ++ (s.foldl AbsorbLoop.byte l).blocks } := by
  induction s generalizing l with
  | nil => rfl
  | cons b s ih => rw [List.foldl_cons, List.foldl_cons, AbsorbLoop.byte_append_log, ih]

/-- The loop over `s ++ t` goes on where the loop over `s` has left the engine. -/
theorem absorbLoop_append (e : Engine v) (s t : List Byte) :
    absorbLoop e (s ++ t) =
      { absorbLoop (absorb e s) t with blocks := absorbBlocks e s ++ absorbBlocks (absorb e s) t } := by
  have hstart : absorbLoop e s =
      { (absorb e s).startAbsorb with blocks := absorbBlocks e s ++ (absorb e s).startAbsorb.blocks } := by
    simp only [Engine.startAbsorb, absorb_filled_toNat, List.append_nil]
    rfl
  rw [absorbLoop_eq, List.foldl_append, ← absorbLoop_eq, hstart, AbsorbLoop.foldl_byte_append_log, ← absorbLoop_eq]
  rfl

theorem absorb_append (e : Engine v) (s t : List Byte) : absorb e (s ++ t) = absorb (absorb e s) t := by
  have hloop := absorbLoop_append e s t
  have hlength : e.length + BitVec.ofNat v.L (s ++ t).length = (absorb e s).length + BitVec.ofNat v.L t.length := by
    rw [absorb_length, List.length_append, BitVec.ofNat_add, BitVec.add_assoc]
  rw [absorb, hloop, hlength]
  rfl

theorem absorbBlocks_append (e : Engine v) (s t : List Byte) :
    absorbBlocks e (s ++ t) = absorbBlocks e s ++ absorbBlocks (absorb e s) t :=
  congrArg AbsorbLoop.blocks (absorbLoop_append e s t)

/-- The number of `COMPRESS` calls of ABSORB depends on no byte. -/
theorem absorbBlocks_length (e : Engine v) (s : List Byte) :
    (absorbBlocks e s).length = (e.filled.toNat + s.length) / v.B := by
  rw [absorbBlocks, absorbLoop_eq, (AbsorbLoop.foldl_byte_counts s (filled_lt e)).2]
  exact Nat.zero_add _

/-- The zero count of rule R224, with `FILLED` as the `0x80` byte left it, is that of rule R228 at entry. -/
theorem zeroCount_absorb_0x80 (e : Engine v) :
    zeroCount v (absorb e [0x80]).filled.toNat = (((v.B : Int) - v.Lf - 1 - e.filled.toNat) % v.B).toNat := by
  rw [absorb_filled_eq_mod, List.length_singleton, zeroCount_succ (filled_lt e)]

/-- The three padding steps are one absorption. -/
theorem padEngine_eq_absorb (e : Engine v) :
    padEngine e = absorb e (padding v e.filled.toNat (bitLength e.length).toNat) := by
  rw [padding, absorb_append, absorb_append, ← zeroCount_absorb_0x80]
  rfl

theorem padBlocks_eq_absorbBlocks (e : Engine v) :
    padBlocks e = absorbBlocks e (padding v e.filled.toNat (bitLength e.length).toNat) := by
  rw [padding, absorbBlocks_append, absorbBlocks_append, absorb_append, ← zeroCount_absorb_0x80]
  rfl

/-- The padding ends a block. -/
theorem add_padding_length_mod (v : Variant) (n bl : Nat) : (n + (padding v n bl).length) % v.B = 0 := by
  rw [padding_length]
  cases v <;> simp only [Variant.B, Variant.Lf] <;> omega

theorem add_padding_length_div {f : Nat} (hf : f < v.B) (bl : Nat) :
    (f + (padding v f bl).length) / v.B = if f ≤ v.B - v.Lf - 1 then 1 else 2 := by
  rw [padding_length]
  split <;> cases v <;> simp only [Variant.B, Variant.Lf] at * <;> omega

theorem pad_length_mod (v : Variant) (m : List Byte) : (pad v m).length % v.B = 0 := by
  rw [pad, List.length_append]
  exact add_padding_length_mod v _ _

theorem padEngine_filled (e : Engine v) : (padEngine e).filled.toNat = 0 := by
  rw [padEngine_eq_absorb, absorb_filled_eq_mod]
  exact add_padding_length_mod v _ _

theorem padBlocks_length (e : Engine v) :
    (padBlocks e).length = if e.filled.toNat ≤ v.B - v.Lf - 1 then 1 else 2 := by
  rw [padBlocks_eq_absorbBlocks, absorbBlocks_length, add_padding_length_div (filled_lt e)]

/-- The zero count after the `0x80` byte as rule R228 writes it, over the integers. -/
theorem zeroCount_succ_cast {f : Nat} (hf : f < v.B) :
    (zeroCount v ((f + 1) % v.B) : Int) = ((v.B : Int) - v.Lf - 1 - f) % v.B := by
  have hB : (v.B : Int) ≠ 0 := Int.natCast_ne_zero.2 (Variant_B_pos v).ne'
  rw [zeroCount_succ hf, Int.toNat_of_nonneg (Int.emod_nonneg _ hB)]

theorem zeroCount_lt (v : Variant) (n : Nat) : zeroCount v n < v.B := by
  cases v <;> simp only [zeroCount, Variant.B, Variant.Lf] <;> omega

theorem absorbed_bitLength {e : Engine v} {m : List Byte} (h : Absorbed e m) :
    (bitLength e.length).toNat = (8 * m.length) % 2 ^ v.L := by
  rw [bitLength_toNat, h.length, Nat.mul_mod_mod]

theorem two_pow_L (v : Variant) : 2 ^ v.L = 8 * 2 ^ (v.L - 3) := by cases v <;> rfl

end Sys2Proof.Machine

open Sys2Proof Sys2Proof.Machine

/-- Settles O44: the run of rule R232 over the pieces, whose engine stands for their concatenation after each UPDATE. -/
theorem digestOfAMessageInAnyPieces : Obligations.DigestOfAMessageInAnyPieces :=
  ⟨pad_length_mod, fun _ pieces hr hp => run_reset_updates_finalize hr pieces hp⟩

/-- Settles O41: the padding's byte count is that of `padding_length`, and its absorption ends one or two blocks. -/
theorem paddingLengthLaw : Obligations.PaddingLengthLaw := by
  intro v F0 hF0
  have hlt := zeroCount_lt v ((F0 + 1) % v.B)
  refine ⟨zeroCount_succ_cast hF0, ?_, by omega, by omega, ?_⟩
  · rw [zeroCount_succ hF0, ← padding_length F0 0]
    exact add_padding_length_mod v F0 0
  · rintro e rfl
    exact padBlocks_length e

/-- Settles O42: `LENGTH` is `|m|` modulo `2^L`, and `8 * |m|` is its own remainder exactly below `2^L`. -/
theorem bitLengthWraps : Obligations.BitLengthWraps := by
  intro v e m h
  have hpos : 0 < 2 ^ (v.L - 3) := Nat.two_pow_pos _
  rw [absorbed_bitLength h]
  refine ⟨rfl, ?_⟩
  rw [Ne, Nat.mod_eq_iff_lt (Nat.two_pow_pos _).ne', two_pow_L]
  omega

end

section
/-! FINALIZE (42_finalize.md rules R221, R227 and R229): its one command word, and what it does in either phase. -/

namespace Sys2Proof.Machine

/-- A command without operand has one word. -/
theorem cw_eq_commandWord_iff (cw : BitVec 32) (op : BitVec 4) :
    cw = commandWord 0 op ↔ rsvField cw = 0 ∧ opField cw = op ∧ nField cw = 0 := by
  have hmask : cw &&& 0xFFFFFFFF = cw := BitVec.and_allOnes
  rw [← and_allOnes_eq_iff, hmask]

theorem decode_finalize_iff (t : Transaction) : decode t = .ok .finalize ↔ t.cw = 0x00000003 := by
  have hword : (0x00000003 : BitVec 32) = commandWord 0 0x3 := rfl
  rw [hword, cw_eq_commandWord_iff]
  constructor
  · intro hd
    simpa using decode_ok hd
  · rintro ⟨hr, ho, hn⟩
    simp [decode_eq, hr, ho, hn]

theorem eq_finalize_of_opField {t : Transaction} {i : Instr} (ho : opField t.cw = 0x3) (hd : decode t = .ok i) :
    i = .finalize := by
  have hcase : nField t.cw = 0 ∧ i = .finalize := by simpa [ho] using (decode_ok hd).2
  exact hcase.2

/-- A word with the `OP` of FINALIZE that is not FINALIZE's is illegal. -/
theorem answeredIllegal_of_opField_finalize {t : Transaction} (ho : opField t.cw = 0x3) (hne : t.cw ≠ 0x00000003) :
    AnsweredIllegal t := by
  cases hd : decode t with
  | error err => exact answeredIllegal_of_decode_error hd
  | ok i =>
    rw [eq_finalize_of_opField ho hd] at hd
    exact absurd ((decode_finalize_iff t).1 hd) hne

theorem exec_finalize_absorbing {s : State} (h : s.engine.phase = .absorbing) :
    exec .finalize s = .next { s with
      engine := (padEngine s.engine).setFinalized
      outbox := s.outbox ++ [{ rw := 0x00000000, dout := serialize (padEngine s.engine).setFinalized.H }] } := by
  have hrw : responseWord .ok 0 = 0x00000000 := congrArg Response.rw okResponse_eq
  rw [← hrw]
  exact execFinalize_absorbing h

theorem exec_finalize_finalized {s : State} (h : s.engine.phase = .finalized) :
    exec .finalize s = .next { s with outbox := s.outbox ++ [{ rw := 0x00000002, dout := [] }] } := by
  rw [← errorResponse_eFinalized]
  exact execFinalize_finalized h

end Sys2Proof.Machine

open Sys2Proof Sys2Proof.Machine

/-- Settles O39: the padding steps are one absorption, so the facts about ABSORB tell what FINALIZE leaves. -/
theorem finalizePadsAndAnswersTheDigest : Obligations.FinalizePadsAndAnswersTheDigest := by
  refine ⟨decode_finalize_iff, fun t => answeredIllegal_of_opField_finalize, ?_, fun s => exec_finalize_finalized⟩
  rintro s hphase ⟨held, -⟩
  refine ⟨_, exec_finalize_absorbing hphase, rfl, padEngine_filled s.engine, ?_, ?_, padBlocks_length s.engine⟩
  · rw [← bitLength_toNat, ← absorb_length_toNat, ← padEngine_eq_absorb, Engine.setFinalized_length]
  · rw [← bitLength_toNat, ← absorb_H_eq_compressStar held, ← padEngine_eq_absorb, Engine.setFinalized_H]

end

section
/-! The serialization of the state words (42_finalize.md rule R226). -/

namespace Sys2Proof.Machine

/-- Pieces of one length `k` put end to end: element `k·i + j` is element `j` of piece `i`. -/
theorem getElem?_flatMap_of_length {α β : Type} {f : α → List β} {k : Nat} (hk : ∀ x, (f x).length = k) (l : List α)
    (i : Nat) {j : Nat} (hj : j < k) : (l.flatMap f)[k * i + j]? = l[i]?.bind fun x => (f x)[j]? := by
  induction l generalizing i with
  | nil => rfl
  | cons x l ih =>
    rw [List.flatMap_cons]
    cases i with
    | zero =>
      rw [Nat.mul_zero, Nat.zero_add, List.getElem?_append_left (by rw [hk]; exact hj)]
      rfl
    | succ i =>
      have hpos : k * (i + 1) + j = (f x).length + (k * i + j) := by rw [hk, Nat.mul_succ]; omega
      rw [hpos, List.getElem?_append_right (Nat.le_add_right _ _), Nat.add_sub_cancel_left, ih]
      rfl

@[simp] theorem bytesBe_length (n x : Nat) : (bytesBe n x).length = n := by simp [bytesBe]

theorem bytesBe_getElem? {n j : Nat} (hj : j < n) (x : Nat) :
    (bytesBe n x)[j]? = some (BitVec.ofNat 8 (x >>> (8 * (n - 1 - j)))) := by
  simp [bytesBe, hj]

variable {v : Variant}

/-- Byte `j` of a word, most significant first. -/
theorem bytesBe_word_getElem? (w : Word v) {j : Nat} (hj : j < v.NB) :
    (bytesBe v.NB w.toNat)[j]? = some (w.extractLsb' (v.W - 8 - 8 * j) 8) := by
  have hpos : v.W - 8 - 8 * j = 8 * (v.NB - 1 - j) := by rw [Variant_W_eq]; omega
  rw [bytesBe_getElem? hj, hpos]
  rfl

end Sys2Proof.Machine

open Sys2Proof Sys2Proof.Machine

/-- Settles O43: the words have `NB` bytes each, so byte `NB·i + j` is byte `j` of word `i`. -/
theorem digestBytesAreTheStateWords : Obligations.DigestBytesAreTheStateWords := by
  refine fun v H => ⟨serialize_length H, fun i j hj => ?_⟩
  have hword : H.toList[i.val]? = some H[i.val] := by simp
  rw [serialize, getElem?_flatMap_of_length (fun w => bytesBe_length _ _) _ _ hj, hword]
  exact bytesBe_word_getElem? _ hj

end

section
/-! RESET and QSIZE (43_control.md rules R261 and R262): a run does not look at the responses given before it, and a
command without operand has one command word. -/

namespace Sys2Proof.Machine

/-- A step adds to the responses given before it and does not look at them. -/
theorem step_outbox_frame {s t : State} (h : step s = .next t) :
    ∃ given, t.outbox = s.outbox ++ given ∧
      ∀ past : List Response, step { s with outbox := past } = .next { t with outbox := past ++ given } := by
  cases hin : s.inbox with
  | nil =>
    cases (step_idle hin).symm.trans h
    refine ⟨[], (List.append_nil _).symm, fun past => ?_⟩
    rw [List.append_nil, hin]
    exact step_idle rfl
  | cons ev rest =>
    rw [step_event hin] at h
    obtain ⟨hrest, given, hout, hframe⟩ := handle_frame h
    refine ⟨given, hout, fun past => ?_⟩
    rw [step_event rfl, hrest]
    exact hframe rest past

/-- So does a run. -/
theorem run_outbox_frame {s t : State} {k : Nat} (h : Host.Core.run Sys2Proof.core k s = .next t) :
    ∃ given, t.outbox = s.outbox ++ given ∧ ∀ past : List Response,
      Host.Core.run Sys2Proof.core k { s with outbox := past } = .next { t with outbox := past ++ given } := by
  induction k generalizing s with
  | zero =>
    cases h
    refine ⟨[], (List.append_nil _).symm, fun past => ?_⟩
    rw [List.append_nil, run_zero]
  | succ k ih =>
    obtain ⟨s', hstep, hrun⟩ := run_next_inv h
    obtain ⟨first, hfirst, hstepFrame⟩ := step_outbox_frame hstep
    obtain ⟨given, hgiven, hrunFrame⟩ := ih hrun
    refine ⟨first ++ given, ?_, fun past => ?_⟩
    · rw [hgiven, hfirst, List.append_assoc]
    · rw [run_next k (hstepFrame past), ← List.append_assoc]
      exact hrunFrame (past ++ first)

/-- A command is taken only after a hardware reset. -/
theorem ready_of_step_command {s s' : State} {t : Transaction} {rest : List HostEvent}
    (hin : s.inbox = .command .idle t :: rest) (h : step s = .next s') : s.ready = true := by
  rw [step_command hin] at h
  exact (transact_next h).1

/-- The step of a RESET sets every component of the engine, whatever it was. -/
theorem step_reset {s : State} {rest : List HostEvent} (hr : s.ready = true)
    (hin : s.inbox = .command .idle (encode .reset) :: rest) :
    step s = .next { s with
      engine := Engine.s0 s.variant, inbox := rest, outbox := s.outbox ++ [okResponse] } := by
  rw [step_command hin, transact_ok (s := s.take rest) hr (encode_wf rfl) (decode_encode _)]
  exact execReset_eq (s.take rest)

/-- A command without operand has the command word of its encoding and no other. -/
theorem decode_noOperand_iff {i : Instr} (hi : ∀ p, i ≠ .update p) (t : Transaction) :
    decode t = .ok i ↔ t.cw = (encode i).cw := by
  constructor
  · intro hd
    obtain ⟨hr, ⟨ho, hn, rfl⟩ | ⟨-, rfl⟩ | ⟨ho, hn, rfl⟩ | ⟨ho, hn, rfl⟩⟩ := decode_ok hd
    · exact (cw_eq_commandWord_iff _ _).2 ⟨hr, ho, hn⟩
    · exact absurd rfl (hi _)
    · exact (cw_eq_commandWord_iff _ _).2 ⟨hr, ho, hn⟩
    · exact (cw_eq_commandWord_iff _ _).2 ⟨hr, ho, hn⟩
  · intro hcw
    cases i with
    | reset => simp [decode_eq, hcw, encode, rsvField_commandWord, opField_commandWord, nField_commandWord]
    | update p => exact absurd rfl (hi p)
    | finalize => simp [decode_eq, hcw, encode, rsvField_commandWord, opField_commandWord, nField_commandWord]
    | qsize => simp [decode_eq, hcw, encode, rsvField_commandWord, opField_commandWord, nField_commandWord]

/-- With the `OP` of a command without operand, every word but that command's own is illegal. -/
theorem answeredIllegal_of_noOperand {t : Transaction}
    (ho : opField t.cw = 0x1 ∨ opField t.cw = 0x3 ∨ opField t.cw = 0x4)
    (hne : t.cw ≠ commandWord 0 (opField t.cw)) : AnsweredIllegal t := by
  have hfields : rsvField t.cw ≠ 0 ∨ nField t.cw ≠ 0 := by
    by_contra! hzero
    exact hne ((cw_eq_commandWord_iff _ _).2 ⟨hzero.1, rfl, hzero.2⟩)
  obtain ⟨err, hd⟩ := (decode_error_iff t).2 (.inr (hfields.imp_right fun hn => ⟨ho, hn⟩))
  exact answeredIllegal_of_decode_error hd

theorem exec_qsize_of_digestSize {s : State} {rw₀ : BitVec 32}
    (h : responseWord .ok (BitVec.ofNat 24 s.variant.D) = rw₀) :
    exec .qsize s = .next { s with outbox := s.outbox ++ [{ rw := rw₀, dout := [] }] } := by
  rw [← h]
  exact execQsize_eq s

end Sys2Proof.Machine

open Sys2Proof Sys2Proof.Machine

/-- Settles O16: after the RESET the two states differ in the responses given before it alone, and no run looks at
these. -/
theorem nothingBeforeAResetMatters : Obligations.NothingBeforeAResetMatters := by
  intro s t e₁ e₂ past₁ past₂ later k h
  obtain ⟨s', hstep, -⟩ := run_next_inv h
  have hr : s.ready = true :=
    ready_of_step_command (s := { s with engine := e₁, outbox := past₁, inbox := _ :: later }) rfl hstep
  have hreset (e : Engine s.variant) (past : List Response) :=
    run_next k (step_reset (s := { s with engine := e, outbox := past, inbox := _ :: later }) hr rfl)
  rw [hreset] at h
  obtain ⟨given, hout, hframe⟩ := run_outbox_frame h
  refine ⟨_, okResponse :: given, ?_, (hreset e₂ past₂).trans (hframe _), ?_⟩
  · rw [hout]
    exact List.append_assoc _ _ _
  · exact List.append_assoc _ _ _

/-- Settles O17: QSIZE has no operand, so it has one word, and its response depends on the variant alone. -/
theorem qsizeAnswersTheDigestSize : Obligations.QsizeAnswersTheDigestSize := by
  refine ⟨fun t => decode_noOperand_iff (i := .qsize) nofun t, fun t ho hne => ?_, fun s => ⟨fun hv => ?_, fun hv => ?_⟩⟩
  · exact answeredIllegal_of_noOperand (.inr (.inr ho)) (ho ▸ hne)
  · exact exec_qsize_of_digestSize (by rw [hv]; decide)
  · exact exec_qsize_of_digestSize (by rw [hv]; decide)

end

section
/-! Rejected commands (60_exceptions.md rules R300, R302, R306 and R308): a response with an error code comes with no effect
on the state. -/

namespace Sys2Proof.Machine

/-- A command whose response has an error code gave the error response and did nothing else (rules R300 and R308). -/
theorem step_of_rejected {s s' : State} {t : Transaction} {rest : List HostEvent} {r : Response}
    (hin : s.inbox = .command .idle t :: rest) (hstep : step s = .next s') (hout : s'.outbox = s.outbox ++ [r])
    (hst : r.rw.extractLsb' 0 4 ≠ 0x0) :
    (∃ st, r = errorResponse st) ∧ s' = { s with inbox := rest, outbox := s.outbox ++ [r] } := by
  obtain ⟨e, r', rfl, hcase⟩ := command_next hin hstep
  obtain rfl : r' = r := by simpa using hout
  rcases hcase with ⟨-, -, rfl⟩ | ⟨p, -, -, -, rfl⟩ | ⟨-, -, -, rfl⟩ | ⟨-, -, rfl⟩ | ⟨-, -, rfl, rfl⟩ | ⟨-, rfl, rfl⟩
  · exact absurd (responseWord_status .ok _) hst
  · exact absurd (responseWord_status .ok _) hst
  · exact absurd (responseWord_status .ok _) hst
  · exact absurd (responseWord_status .ok _) hst
  · exact ⟨⟨.eFinalized, rfl⟩, rfl⟩
  · exact ⟨⟨.eIllegal, rfl⟩, rfl⟩

theorem exec_update_finalized {s : State} (h : s.engine.phase = .finalized) (p : List Byte) :
    exec (.update p) s = .next { s with outbox := s.outbox ++ [{ rw := 0x00000002, dout := [] }] } := by
  rw [← errorResponse_eFinalized]
  exact execUpdate_finalized h p

end Sys2Proof.Machine

open Sys2Proof Sys2Proof.Machine

/-- Settles O11: a taken command was admitted, so it has the status of its first failed check, and with an error code it
gave the error response and did nothing else. -/
theorem rejectedCommandsChangeNothing : Obligations.RejectedCommandsChangeNothing := by
  intro s s' t rest hin hstep
  obtain ⟨hr, hw, -⟩ := transact_next ((step_command hin).symm.trans hstep)
  obtain ⟨s'', r, hstep', -, hout, hillegal, hfinalized, -⟩ :=
    everyCommandCompletesWithTheStatusOfTheFirstFailedCheck s t rest hr hw hin
  cases hstep.symm.trans hstep'
  refine ⟨r, hout, hillegal, hfinalized, fun hst => ?_⟩
  obtain ⟨⟨st, rfl⟩, hs'⟩ := step_of_rejected hin hstep hout hst
  exact ⟨responseWord_value st 0, rfl, hs'⟩

/-- Settles O12: the state after the rejected command differs from the one without it in the responses given before alone,
and no run looks at these. -/
theorem rejectedCommandsLeaveNoTrace : Obligations.RejectedCommandsLeaveNoTrace := by
  intro s s' u t rest r k hin hstep hout hst hrun
  obtain ⟨-, rfl⟩ := step_of_rejected hin hstep hout hst
  obtain ⟨given, hgiven, hframe⟩ := run_outbox_frame hrun
  exact ⟨given, hgiven, hframe s.outbox⟩

/-- Settles O36: both commands look at the phase first and raise `E_FINALIZED`. -/
theorem updateAndFinalizeAreRejectedAfterFinalize : Obligations.UpdateAndFinalizeAreRejectedAfterFinalize :=
  fun _ hphase => ⟨exec_update_finalized hphase, exec_finalize_finalized hphase⟩

end

section
/-! Commands and transactions (30_encoding.md sections 1, 5 and 7): decoding and encoding are inverse to each other. -/

namespace Sys2Proof.Machine

/-- A well-formed transaction without operand is told by its `OP` alone. -/
theorem eq_noOperand_transaction {t : Transaction} {op : BitVec 4} (hw : t.wf = true) (hr : rsvField t.cw = 0)
    (ho : opField t.cw = op) (hn : nField t.cw = 0) : { cw := commandWord 0 op, payload := [] } = t := by
  obtain ⟨cw, payload⟩ := t
  rw [wf_iff_length, hn] at hw
  have hpayload : payload = [] := List.length_eq_zero_iff.1 hw
  rw [(cw_eq_commandWord_iff cw op).2 ⟨hr, ho, hn⟩, hpayload]

/-- No bit of a legal transaction is dropped: the fields its command does not name are zero, and its word counts its
payload. -/
theorem encode_of_decode {t : Transaction} {i : Instr} (hw : t.wf = true) (hd : decode t = .ok i) : encode i = t := by
  obtain ⟨hr, ⟨ho, hn, rfl⟩ | ⟨ho, rfl⟩ | ⟨ho, hn, rfl⟩ | ⟨ho, hn, rfl⟩⟩ := decode_ok hd
  · exact eq_noOperand_transaction hw hr ho hn
  · have hn : BitVec.ofNat 24 t.payload.length = nField t.cw := by
      rw [(wf_iff_length t).1 hw, BitVec.ofNat_toNat, BitVec.setWidth_eq]
    have hcw : commandWord (BitVec.ofNat 24 t.payload.length) 0x2 = t.cw := by rw [hn, ← ho, commandWord_fields hr]
    rw [encode, hcw]
  · exact eq_noOperand_transaction hw hr ho hn
  · exact eq_noOperand_transaction hw hr ho hn

/-- The field `N` of a word is below `2^24`, so the payload of a well-formed transaction fits one UPDATE. -/
theorem wf_of_decode {t : Transaction} {i : Instr} (hw : t.wf = true) (hd : decode t = .ok i) : i.wf = true := by
  obtain ⟨-, ⟨-, -, rfl⟩ | ⟨-, rfl⟩ | ⟨-, -, rfl⟩ | ⟨-, -, rfl⟩⟩ := decode_ok hd
  · rfl
  · refine decide_eq_true ?_
    rw [(wf_iff_length t).1 hw]
    exact (nField t.cw).isLt
  · rfl
  · rfl

theorem encode_update_longest {p : List Byte} (hp : p.length = 2 ^ 24 - 1) :
    encode (.update p) = { cw := 0xFFFFFF02, payload := p } := by
  rw [encode, hp]
  rfl

end Sys2Proof.Machine

open Sys2Proof Sys2Proof.Machine

/-- Settles O2: the fields of a command word come back from it, and the longest payload has `2^24 - 1` bytes. -/
theorem decodeInvertsEncode : Obligations.DecodeInvertsEncode := fun i hi => ⟨encode_wf hi, decode_encode i⟩

/-- Settles O3: a word that decodes is made of the fields that its command names, and `RSV = 0`. -/
theorem encodeInvertsDecode : Obligations.EncodeInvertsDecode :=
  fun _ _ hw hd => ⟨wf_of_decode hw hd, encode_of_decode hw hd⟩

/-- Settles O1: the worked words are evaluated, and the longest UPDATE is the encoding of a well-formed command. -/
theorem workedCommandWordsDecode : Obligations.WorkedCommandWordsDecode := by
  refine ⟨by decide, by decide, by decide, by decide, by decide, by decide, by decide, by decide, fun p hp => ?_⟩
  have hwf : (Instr.update p).wf = true := decide_eq_true (by omega)
  rw [← encode_update_longest hp]
  exact ⟨encode_wf hwf, decode_encode _⟩

end

section
/-! ABSORB from every engine state (40_update.md rule R132): the last byte that fills the buffer leaves all of it stale,
and `H` changes through the blocks given to COMPRESS alone. -/

namespace Sys2Proof.Machine

variable {v : Variant}

/-- A byte that leaves nothing pending has filled the buffer, which is then stale. -/
theorem AbsorbLoop.byte_buf_of_f_eq_zero {l : AbsorbLoop v} {b : Byte} (h : (l.byte b).f = 0) :
    (l.byte b).buf = Memory.stale := by
  have hfull : l.f + 1 = v.B := by
    by_contra hne
    rw [AbsorbLoop.byte_f, if_neg hne] at h
    omega
  have hcopy : (l.copy [b]).f = v.B := hfull
  rw [AbsorbLoop.byte, AbsorbLoop.drain, if_pos hcopy]

/-- An absorption that ends a block leaves every byte of `BUF` stale, whatever was there before. -/
theorem absorb_buf_of_filled_eq_zero {e : Engine v} {s : List Byte} (hs : s ≠ [])
    (h : (absorb e s).filled.toNat = 0) : (absorb e s).buf = Memory.stale := by
  rw [absorb_filled_toNat, absorbLoop_eq] at h
  show (absorbLoop e s).buf = Memory.stale
  rw [absorbLoop_eq]
  cases s using List.reverseRecOn with
  | nil => exact absurd rfl hs
  | append_singleton s b =>
    rw [List.foldl_append] at h ⊢
    exact AbsorbLoop.byte_buf_of_f_eq_zero h

/-- `H` is what COMPRESS makes of the blocks logged so far. -/
theorem AbsorbLoop.byte_H {l : AbsorbLoop v} {H : Vector (Word v) 8} (b : Byte) (h : l.H = compressStar H l.blocks) :
    (l.byte b).H = compressStar H (l.byte b).blocks := by
  rw [AbsorbLoop.byte, AbsorbLoop.drain]
  split
  · rw [compressStar_append, ← show (l.copy [b]).H = compressStar H (l.copy [b]).blocks from h]; rfl
  · exact h

theorem absorb_H (e : Engine v) (s : List Byte) : (absorb e s).H = compressStar e.H (absorbBlocks e s) := by
  show (absorbLoop e s).H = compressStar e.H (absorbLoop e s).blocks
  rw [absorbLoop_eq]
  have hstart : e.startAbsorb.H = compressStar e.H e.startAbsorb.blocks := rfl
  generalize e.startAbsorb = l at hstart
  induction s generalizing l with
  | nil => exact hstart
  | cons b s ih => exact ih _ (AbsorbLoop.byte_H b hstart)

theorem padEngine_H (e : Engine v) : (padEngine e).H = compressStar e.H (padBlocks e) := by
  rw [padEngine_eq_absorb, padBlocks_eq_absorbBlocks, absorb_H]

/-- The padding ends a block, so FINALIZE leaves no byte of `BUF` with a value. -/
theorem padEngine_buf (e : Engine v) : (padEngine e).buf = Memory.stale := by
  have hfilled := padEngine_filled e
  rw [padEngine_eq_absorb] at hfilled ⊢
  exact absorb_buf_of_filled_eq_zero (by simp [padding]) hfilled

/-- From a buffer that holds exactly its pending bytes ABSORB leaves one that does. -/
theorem absorb_held {e : Engine v} (held : e.buf.map Prod.fst = List.range e.filled.toNat) (s : List Byte) :
    (absorb e s).buf.map Prod.fst = List.range (absorb e s).filled.toNat := by
  rw [absorb_buf_eq_cellsOf held, cellsOf_keys, leftover_length, pending_append_length, absorb_filled_eq_mod]

theorem absorb_inv {e : Engine v} (hphase : e.phase = .absorbing) (hinv : e.Inv) (s : List Byte) :
    (absorb e s).Inv := by
  refine ⟨absorb_held hinv.1 s, fun hfin => ?_⟩
  rw [absorb_phase, hphase] at hfin
  cases hfin

theorem s0_inv (v : Variant) : (Engine.s0 v).Inv := by
  refine ⟨?_, fun _ => rfl⟩
  simp

/-- FINALIZE leaves the invariant, from every engine state. -/
theorem setFinalized_padEngine_inv (e : Engine v) : (padEngine e).setFinalized.Inv := by
  have hfilled := padEngine_filled e
  refine ⟨?_, fun _ => BitVec.eq_of_toNat_eq ?_⟩
  · rw [Engine.setFinalized_buf, Engine.setFinalized_filled, hfilled, padEngine_buf]
    rfl
  · rw [Engine.setFinalized_filled, hfilled]
    simp

end Sys2Proof.Machine

end

section
/-! What a step can leave in the engine, said once, and the invariants that follow: the variant, what `BUF` holds
(10_state.md rules R37 and R38) and its canonical form. -/

namespace Sys2Proof.Machine

/-- The engines a step can leave where `e` was, each with what it leaves in the field `ready` of a state where it was `r`:
`e` itself, that of an UPDATE or a FINALIZE in phase `ABSORBING`, `S0`, or the unspecified one of a power-up. -/
inductive EngineStep {v : Variant} (e : Engine v) (r : Bool) : Engine v → Bool → Prop where
  | keep : EngineStep e r e r
  | update (p : List Byte) : r = true → e.phase = .absorbing → EngineStep e r (absorb e p) r
  | finalize : r = true → e.phase = .absorbing → EngineStep e r (padEngine e).setFinalized r
  | reset : EngineStep e r (Engine.s0 v) true
  | powerUp (n : Nat) : EngineStep e r (Engine.poweredUp v n) false

theorem step_engineStep {s s' : State} (h : step s = .next s') :
    ∃ (e : Engine s.variant) (ready : Bool) (inbox : List HostEvent) (outbox : List Response) (draws : Nat),
      s' = ⟨s.variant, e, ready, inbox, outbox, draws⟩ ∧ EngineStep s.engine s.ready e ready := by
  obtain ⟨-, rfl⟩ | ⟨t, rest, hin, ht⟩ | ⟨rest, -, rfl⟩ | ⟨rest, -, rfl⟩ := step_next h
  · exact ⟨_, _, _, _, _, rfl, .keep⟩
  · have hr : s.ready = true := (transact_next ht).1
    obtain ⟨e, r, rfl, hcase⟩ := command_next hin h
    refine ⟨e, _, _, _, _, rfl, ?_⟩
    rcases hcase with ⟨-, rfl, -⟩ | ⟨p, -, hp, rfl, -⟩ | ⟨-, hp, rfl, -⟩ | ⟨-, rfl, -⟩ | ⟨-, -, rfl, -⟩ | ⟨-, rfl, -⟩
    · rw [hr]; exact .reset
    · exact .update p hr hp
    · exact .finalize hr hp
    · exact .keep
    · exact .keep
    · exact .keep
  · exact ⟨_, _, _, _, _, rfl, .reset⟩
  · exact ⟨_, _, _, _, _, rfl, .powerUp s.draws⟩

variable {v : Variant} {e e' : Engine v} {r r' : Bool}

theorem EngineStep.inv (h : EngineStep e r e' r') (hinv : r = true → e.Inv) (hr : r' = true) : e'.Inv := by
  cases h with
  | keep => exact hinv hr
  | update p hready hphase => exact absorb_inv hphase (hinv hready) p
  | finalize => exact setFinalized_padEngine_inv e
  | reset => exact s0_inv v
  | powerUp => cases hr

theorem EngineStep.buf_wf (h : EngineStep e r e' r') (hwf : e.buf.wf v.B = true) : e'.buf.wf v.B = true := by
  cases h with
  | keep => exact hwf
  | update p => exact absorb_wf p hwf
  | finalize => rw [Engine.setFinalized_buf, padEngine_buf]; exact Memory.stale_wf _
  | reset => exact Memory.stale_wf _
  | powerUp => exact Memory.stale_wf _

end Sys2Proof.Machine

open Sys2Proof Sys2Proof.Machine

/-- Settles O26: each engine a step can leave in a ready state meets the invariant, that of a FINALIZE from every
engine. -/
theorem stepKeepsTheInvariant : Obligations.StepKeepsTheInvariant := by
  intro s s' hinv h
  obtain ⟨e, ready, inbox, outbox, draws, rfl, hstep⟩ := step_engineStep h
  exact hstep.inv hinv

/-- Settles O27: ABSORB keeps the canonical form, and every other engine a step can leave has a stale buffer. -/
theorem stepKeepsTheBufferCanonical : Obligations.StepKeepsTheBufferCanonical := by
  intro s s' hwf h
  obtain ⟨e, ready, inbox, outbox, draws, rfl, hstep⟩ := step_engineStep h
  exact hstep.buf_wf hwf

/-- Settles O24: the engines a step can leave are all of the variant before it. -/
theorem variantNeverChanges : Obligations.VariantNeverChanges := by
  intro s s' h
  obtain ⟨e, ready, inbox, outbox, draws, rfl, -⟩ := step_engineStep h
  rfl

/-- Settles O25: `S0` has nothing pending and a stale buffer. -/
theorem invariantHoldsAtReset : Obligations.InvariantHoldsAtReset :=
  ⟨fun _ => s0_inv _, fun v => ⟨fun _ => s0_inv v, Memory.stale_wf v.B⟩⟩

/-- Settles O15: a reset and a FINALIZE leave a stale buffer, and ABSORB one with a value below `FILLED` alone. -/
theorem staleBytesHaveNoValue : Obligations.StaleBytesHaveNoValue := by
  refine ⟨fun _ _ => rfl, fun s t a h => ?_, fun v e s j hinv hj => ?_, fun s t a hphase h => ?_⟩
  · cases (execReset_eq s).symm.trans h
    rfl
  · rw [absorb_buf_eq_cellsOf hinv.1, read_cellsOf]
    refine List.getElem?_eq_none ?_
    rwa [leftover_length, pending_append_length]
  · cases (execFinalize_absorbing hphase).symm.trans h
    show (padEngine s.engine).buf.read a = none
    rw [padEngine_buf]
    rfl

end

section
/-! Two absorptions one after the other, a byte at a time, and within one block (40_update.md rule R132), from every
engine state. -/

namespace Sys2Proof.Machine

variable {v : Variant}

theorem foldl_absorb (e : Engine v) (pieces : List (List Byte)) : pieces.foldl absorb e = absorb e pieces.flatten := by
  induction pieces generalizing e with
  | nil => exact (absorb_nil e).symm
  | cons p pieces ih => rw [List.foldl_cons, ih, List.flatten_cons, absorb_append]

theorem absorb_eq_foldl_byte (e : Engine v) (s : List Byte) : absorb e s = s.foldl (fun e b => absorb e [b]) e := by
  induction s generalizing e with
  | nil => exact absorb_nil e
  | cons b s ih => rw [List.foldl_cons, ← ih, ← absorb_append, List.singleton_append]

/-- The loop over bytes that do not fill the buffer copies them, and does nothing else. -/
theorem absorbLoop_of_lt {e : Engine v} {s : List Byte} (h : e.filled.toNat + s.length < v.B) :
    absorbLoop e s = e.startAbsorb.copy s := by
  rw [absorbLoop_eq]
  cases s with
  | nil => rfl
  | cons b s =>
    have hf : (e.startAbsorb.copy (b :: s)).f ≠ v.B := Nat.ne_of_lt h
    rw [← AbsorbLoop.drain_copy (List.cons_ne_nil b s) (Nat.le_of_lt h), AbsorbLoop.drain, if_neg hf]

section WithinTheBlock

variable {e : Engine v} {s : List Byte} (h : e.filled.toNat + s.length < v.B)
include h

theorem absorb_H_of_lt : (absorb e s).H = e.H := congrArg AbsorbLoop.H (absorbLoop_of_lt h)

theorem absorb_buf_of_lt : (absorb e s).buf = memWrite e.buf e.filled.toNat s :=
  congrArg AbsorbLoop.buf (absorbLoop_of_lt h)

theorem absorb_filled_of_lt : (absorb e s).filled.toNat = e.filled.toNat + s.length := by
  rw [absorb_filled_eq_mod, Nat.mod_eq_of_lt h]

end WithinTheBlock

/-- The byte that fills the buffer makes COMPRESS run on all of it. -/
theorem absorb_H_of_full {e : Engine v} {b : Byte} (h : e.filled.toNat + 1 = v.B) :
    (absorb e [b]).H = compress e.H (memRead (e.buf.write e.filled.toNat b) 0 v.B) := by
  have hf : (e.startAbsorb.copy [b]).f = v.B := h
  show (absorbLoop e [b]).H = _
  rw [absorbLoop_eq, List.foldl_cons, List.foldl_nil, AbsorbLoop.byte, AbsorbLoop.drain, if_pos hf]
  rfl

end Sys2Proof.Machine

open Sys2Proof Sys2Proof.Machine

/-- Settles O32: the loop over `x ++ y` goes on where the loop over `x` left the engine. -/
theorem chunkingDoesNotMatter : Obligations.ChunkingDoesNotMatter :=
  ⟨fun _ e x y => (absorb_append e x y).symm, fun _ => foldl_absorb⟩

/-- Settles O33: a byte sequence is split into its bytes, and one byte either stays in the block or fills it. -/
theorem absorbEntersOneByteAtATime : Obligations.AbsorbEntersOneByteAtATime := by
  refine ⟨fun _ => absorb_eq_foldl_byte, fun v e b h => ?_, fun v e b h => ⟨absorb_H_of_full h, ?_⟩⟩
  · exact ⟨absorb_H_of_lt h, absorb_filled_of_lt h, absorb_buf_of_lt h⟩
  · rw [absorb_filled_eq_mod, List.length_singleton, h, Nat.mod_self]

/-- Settles O35: below `B` the loop is one copy, which writes the payload from `FILLED` on and no other byte. -/
theorem updateWithinTheBlockStoresOnlyItsPayload : Obligations.UpdateWithinTheBlockStoresOnlyItsPayload := by
  intro s p hphase h
  refine ⟨_, exec_update_absorbing hphase p, absorb_H_of_lt h, absorb_phase _ _, absorb_filled_of_lt h,
    fun a ha => ?_, fun j hj => ?_⟩
  · rw [absorb_buf_of_lt h, read_memWrite, if_neg (by omega)]
  · rw [absorb_buf_of_lt h, read_memWrite, if_pos (by omega), Nat.add_sub_cancel_left]

end

section
/-! The session of a host (60_exceptions.md section 4): each transaction takes an engine that stands for
a session to one that stands for the session after it, and is answered as the session says. -/

namespace Sys2Proof.Machine

variable {v : Variant}

theorem represents_s0 : Represents (Engine.s0 v) (.absorbing []) :=
  absorbed_iff_eq_ofMessage.2 Engine.s0_eq_ofMessage

theorem absorbed_absorb {e : Engine v} {m : List Byte} (h : Absorbed e m) (p : List Byte) :
    Absorbed (absorb e p) (m ++ p) := by
  rw [absorbed_iff_eq_ofMessage] at h ⊢
  rw [h, absorb_ofMessage]

/-- FINALIZE answers the digest of the message the engine stands for. -/
theorem absorbed_serialize_padEngine {e : Engine v} {m : List Byte} (h : Absorbed e m) :
    serialize (padEngine e).H = digest v m := by
  rw [absorbed_iff_eq_ofMessage.1 h, padEngine_ofMessage, Engine.ofMessage_H, digest]

theorem represents_setFinalized (e : Engine v) : Represents (padEngine e).setFinalized .finalized := by
  refine ⟨rfl, BitVec.eq_of_toNat_eq ?_, padEngine_buf e⟩
  rw [Engine.setFinalized_filled, padEngine_filled]
  simp

/-- One command: its response and the engine it leaves are those of the session. -/
theorem exec_represents {s : State} {σ : Session} (h : Represents s.engine σ) (i : Instr) :
    ∃ e : Engine s.variant,
      exec i s = .next { s with engine := e, outbox := s.outbox ++ [(σ.command s.variant i).2] } ∧
      Represents e (σ.command s.variant i).1 := by
  cases i with
  | reset => exact ⟨_, execReset_eq s, represents_s0⟩
  | qsize => exact ⟨s.engine, execQsize_eq s, h⟩
  | update p =>
    cases σ with
    | absorbing m => exact ⟨_, execUpdate_absorbing (Absorbed.phase h) p, absorbed_absorb h p⟩
    | finalized => exact ⟨s.engine, execUpdate_finalized h.1 p, h⟩
  | finalize =>
    cases σ with
    | absorbing m =>
      refine ⟨_, ?_, represents_setFinalized s.engine⟩
      rw [Session.command, ← absorbed_serialize_padEngine h]
      exact execFinalize_absorbing (Absorbed.phase h)
    | finalized => exact ⟨s.engine, execFinalize_finalized h.1, h⟩

/-- One transaction, legal or not. -/
theorem transact_represents {s : State} {σ : Session} {t : Transaction} (hr : s.ready = true) (hw : t.wf = true)
    (h : Represents s.engine σ) :
    ∃ e : Engine s.variant,
      transact t s = .next { s with engine := e, outbox := s.outbox ++ [(σ.transact s.variant t).2] } ∧
      Represents e (σ.transact s.variant t).1 := by
  rw [Session.transact]
  cases hd : decode t with
  | ok i =>
    rw [transact_ok hr hw hd]
    exact exec_represents h i
  | error err => exact ⟨s.engine, transact_illegal hr hw hd, h⟩

/-- A list of transactions, presented one after another. -/
theorem run_represents {s : State} {σ : Session} {ts : List Transaction} (hr : s.ready = true)
    (h : Represents s.engine σ) (hw : ∀ t ∈ ts, t.wf = true) :
    ∃ s' : State, Host.Core.run Sys2Proof.core ts.length (s.presentAll ts) = .next s' ∧
      s'.inbox = s.inbox ∧ s'.outbox = s.outbox ++ Session.responses s.variant σ ts := by
  induction ts generalizing s σ with
  | nil => exact ⟨_, run_zero _, rfl, (List.append_nil _).symm⟩
  | cons t ts ih =>
    obtain ⟨ht, hts⟩ := List.forall_mem_cons.1 hw
    obtain ⟨e, htransact, he⟩ := transact_represents (s := s.presentAll ts) hr ht h
    have hstep := (step_command (s := s.presentAll (t :: ts)) rfl).trans htransact
    obtain ⟨s', hrun, hin, hout⟩ :=
      ih (s := { s with engine := e, outbox := s.outbox ++ [(σ.transact s.variant t).2] }) hr he hts
    refine ⟨s', (run_next ts.length hstep).trans hrun, hin, ?_⟩
    rw [hout, Session.responses, List.append_assoc]
    rfl

end Sys2Proof.Machine

open Sys2Proof Sys2Proof.Machine

/-- Settles O45: the relation of engine and session is kept by every transaction, which is answered as the session says. -/
theorem responsesFollowTheSession : Obligations.ResponsesFollowTheSession :=
  fun _ _ _ hr h hw => run_represents hr h hw

end

section
/-! UPDATE and FINALIZE as commands (40_update.md rules R131 and R138, 42_finalize.md rule R221, 70_reset_and_hazards.md
rule R420): the words that decode to UPDATE, what it leaves, and the calls of COMPRESS. -/

namespace Sys2Proof.Machine

variable {v : Variant}

/-- UPDATE is told by its low byte, whatever its `N`. -/
theorem decode_update_iff (t : Transaction) (p : List Byte) :
    decode t = .ok (.update p) ↔ t.cw &&& 0x000000FF = 0x00000002 ∧ p = t.payload := by
  have hword : (0x00000002 : BitVec 32) = commandWord 0 0x2 := rfl
  rw [hword, and_lowByte_eq_iff]
  constructor
  · intro hd
    obtain ⟨hr, hcase⟩ := decode_ok hd
    have ho : opField t.cw = 0x2 ∧ p = t.payload := by simpa using hcase
    exact ⟨⟨hr, ho.1⟩, ho.2⟩
  · rintro ⟨⟨hr, ho⟩, rfl⟩
    simp [decode_eq, hr, ho]

theorem answeredIllegal_of_rsvField {t : Transaction} (hr : rsvField t.cw ≠ 0) : AnsweredIllegal t := by
  obtain ⟨err, hd⟩ := (decode_error_iff t).2 (.inr (.inl hr))
  exact answeredIllegal_of_decode_error hd

/-- What is pending after ABSORB are the last `FILLED` of the bytes that were pending and those absorbed. -/
theorem absorb_pending {e : Engine v} (held : e.buf.map Prod.fst = List.range e.filled.toNat) (s : List Byte) :
    (absorb e s).pending =
      (e.pending ++ s).drop ((e.filled.toNat + s.length) - (absorb e s).filled.toNat) := by
  rw [absorb_filled_eq_mod, ← pending_append_length, drop_whole_blocks, Engine.pending, absorb_filled_eq_mod,
    ← pending_append_length, absorb_buf_eq_cellsOf held, ← leftover_length, memRead_cellsOf]

theorem compressCalls_update {s : State} (h : s.engine.phase = .absorbing) (p : List Byte) :
    compressCalls (.update p) s = (absorbBlocks s.engine p).length := by simp only [compressCalls, h]

theorem compressCalls_finalize {s : State} (h : s.engine.phase = .absorbing) :
    compressCalls .finalize s = (padBlocks s.engine).length := by simp only [compressCalls, h]

/-- A command keeps the relation of rule R138 as the session says. -/
theorem represents_of_exec {s t : State} {σ : Session} {i : Instr} (h : Represents s.engine σ)
    (hx : exec i s = .next t) : Represents t.engine (σ.command s.variant i).1 := by
  obtain ⟨e, he, hrep⟩ := exec_represents h i
  cases hx.symm.trans he
  exact hrep

end Sys2Proof.Machine

open Sys2Proof Sys2Proof.Machine

/-- Settles O28: UPDATE in phase `ABSORBING` is ABSORB, whose counts hold of every engine and whose blocks and remainder
of one that holds exactly its pending bytes. -/
theorem updateAbsorbsItsPayload : Obligations.UpdateAbsorbsItsPayload := by
  refine ⟨decode_update_iff, fun t _ hr => answeredIllegal_of_rsvField hr, fun s p hphase => ?_,
    fun s p hphase => exec_update_finalized hphase p⟩
  refine ⟨_, exec_update_absorbing hphase p, rfl, hphase, absorb_length_toNat _ _, absorb_filled_eq_mod _ _,
    absorbBlocks_length _ _, fun hinv => ?_⟩
  exact ⟨absorb_inv hphase hinv p, absorb_H_eq_compressStar hinv.1 p, absorb_pending hinv.1 p⟩

/-- Settles O37: `S0` stands for the empty message, and each command keeps the relation as the session says. -/
theorem engineStandsForTheMessageAbsorbed : Obligations.EngineStandsForTheMessageAbsorbed := by
  refine ⟨fun v => represents_s0, fun s t h => ?_, fun s t h => ?_, fun s t m p hm h => ?_, fun s t m hm h => ?_,
    fun s t m tr err hm hd h => ?_⟩
  · cases (execReset_eq s).symm.trans h
    exact represents_s0
  · cases h
    exact represents_s0
  · exact represents_of_exec (σ := .absorbing m) hm h
  · exact represents_of_exec (σ := .absorbing m) hm h
  · obtain ⟨hr, hw, -⟩ := transact_next h
    cases (transact_illegal hr hw hd).symm.trans h
    exact hm

/-- Settles O38: the calls are the blocks of the loop, counted. -/
theorem compressCallsOfEachCommand : Obligations.CompressCallsOfEachCommand := by
  refine fun s => ⟨rfl, rfl, fun h => ⟨fun p => ?_, ?_⟩⟩
  · rw [compressCalls_update h, absorbBlocks_length]
  · rw [compressCalls_finalize h, padBlocks_length]

/-- Settles O40: the padding steps complete from every engine, and end a block whatever the buffer holds. -/
theorem finalizeCompletesFromEveryAbsorbingState : Obligations.FinalizeCompletesFromEveryAbsorbingState :=
  fun s h => ⟨_, exec_finalize_absorbing h, rfl, padEngine_filled s.engine⟩

end

section
/-! What the commands write (10_state.md rules R32, R44 and R45, 20_memory.md rule R81, 43_control.md rules R260 and R262):
the engine, the phase and `H` after each, and the way out of phase `FINALIZED`. -/

namespace Sys2Proof.Machine

/-- Fewer bytes than `2^24`, and at least one, change the count modulo `2^L`. -/
theorem add_length_mod_ne (v : Variant) (x : Nat) {n : Nat} (hpos : 0 < n) (hlt : n < 2 ^ 24) :
    (x + n) % 2 ^ v.L ≠ x % 2 ^ v.L := by
  have hL : 2 ^ 24 ≤ 2 ^ v.L := Nat.pow_le_pow_right (by decide) (by cases v <;> decide)
  intro h
  have hn : n % 2 ^ v.L = 0 % 2 ^ v.L := Nat.ModEq.add_left_cancel' x h
  rw [Nat.mod_eq_of_lt (hlt.trans_le hL), Nat.zero_mod] at hn
  omega

theorem length_ne_of_absorb {v : Variant} (e : Engine v) {p : List Byte} (hp : p ≠ [])
    (hwf : (Instr.update p).wf = true) : (absorb e p).length.toNat ≠ e.length.toNat := by
  have hne := add_length_mod_ne v e.length.toNat (List.length_pos_iff.2 hp) (of_decide_eq_true hwf)
  rwa [Nat.mod_eq_of_lt e.length.isLt, ← absorb_length_toNat] at hne

/-- RESET has one transaction. -/
theorem transaction_of_decode_reset {t : Transaction} (hw : t.wf = true) (hd : decode t = .ok .reset) :
    t = { cw := 0x00000001, payload := [] } := (encode_of_decode hw hd).symm

/-- A command that takes an engine in phase `FINALIZED` to one in phase `ABSORBING` is RESET. -/
theorem decode_reset_of_leaves_finalized {s s' : State} {t : Transaction} {rest : List HostEvent}
    (hin : s.inbox = .command .idle t :: rest) (hfin : s.engine.phase = .finalized) (h : step s = .next s')
    (habs : s'.engine.phase = .absorbing) : decode t = .ok .reset := by
  obtain ⟨e, r, rfl, hcase⟩ := command_next hin h
  have hkept : e ≠ s.engine := by
    rintro rfl
    cases hfin.symm.trans habs
  rcases hcase with ⟨hd, -⟩ | ⟨p, -, hp, -⟩ | ⟨-, hp, -⟩ | ⟨-, he, -⟩ | ⟨-, -, he, -⟩ | ⟨-, he, -⟩
  · exact hd
  · cases hfin.symm.trans hp
  · cases hfin.symm.trans hp
  · exact absurd he hkept
  · exact absurd he hkept
  · exact absurd he hkept

end Sys2Proof.Machine

open Sys2Proof Sys2Proof.Machine

/-- Settles O19: each of these commands leaves the engine as it was. -/
theorem commandsThatStoreNothingKeepEveryByte : Obligations.CommandsThatStoreNothingKeepEveryByte := by
  intro i s t hi h
  have hkept : t = { s with outbox := t.outbox } := by
    rcases hi with rfl | ⟨⟨p, rfl⟩ | rfl, hfin⟩
    · cases (execQsize_eq s).symm.trans h; rfl
    · cases (execUpdate_finalized hfin p).symm.trans h; rfl
    · cases (execFinalize_finalized hfin).symm.trans h; rfl
  refine ⟨hkept, fun a => ?_⟩
  rw [hkept]
  rfl

/-- Settles O20: the phase of each engine that `exec_cases` names. -/
theorem phaseIsWrittenOnlyByFinalizeAndReset : Obligations.PhaseIsWrittenOnlyByFinalizeAndReset := by
  refine ⟨fun i s t h => ?_, fun s t h => by cases h; rfl⟩
  obtain ⟨e, r, he, hcase⟩ := exec_cases i s
  cases h.symm.trans he
  rcases hcase with ⟨rfl, rfl, -⟩ | ⟨p, rfl, -, rfl, -⟩ | ⟨rfl, -, rfl, -⟩ | ⟨rfl, rfl, -⟩ | ⟨⟨p, rfl⟩ | rfl, hp, rfl, -⟩
  · simp [Phase.bit]
  · simp
  · simp [Phase.bit]
  · simp
  · simp
  · simp [hp, Phase.bit]

/-- Settles O18: a second RESET and a second QSIZE find the engine as they leave it; UPDATE has changed `LENGTH`, and
FINALIZE the phase. -/
theorem onlyUpdateAndFinalizeAreNotIdempotent : Obligations.OnlyUpdateAndFinalizeAreNotIdempotent := by
  refine ⟨fun s s₁ s₂ h₁ h₂ => ?_, fun s s₁ s₂ h₁ h₂ => ?_, fun s s₁ s₂ p hphase hp hwf h₁ h₂ => ?_,
    fun s s₁ s₂ hphase h₁ h₂ => ?_⟩
  · cases (execReset_eq s).symm.trans h₁
    cases (execReset_eq _).symm.trans h₂
    exact ⟨rfl, rfl⟩
  · cases (execQsize_eq s).symm.trans h₁
    cases (execQsize_eq _).symm.trans h₂
    exact ⟨rfl, rfl⟩
  · obtain ⟨-, -, hkept⟩ := phaseIsWrittenOnlyByFinalizeAndReset.1 (.update p) s s₁ h₁
    cases (execUpdate_absorbing ((hkept nofun nofun).trans hphase) p).symm.trans h₂
    exact length_ne_of_absorb s₁.engine hp hwf
  · obtain ⟨hfin, -⟩ := (phaseIsWrittenOnlyByFinalizeAndReset.1 .finalize s s₁ h₁).1 rfl
    cases (execFinalize_finalized hfin).symm.trans h₂
    cases (execFinalize_absorbing hphase).symm.trans h₁
    exact ⟨_, _, rfl, rfl, responseWord_status .ok 0, responseWord_status .eFinalized 0⟩

/-- Settles O21: RESET writes the IV, ABSORB and the padding what COMPRESS makes of their blocks, and no other command
writes the engine. -/
theorem hashIsWrittenOnlyByResetAndCompress : Obligations.HashIsWrittenOnlyByResetAndCompress := by
  intro i s
  obtain ⟨e, r, hx, hcase⟩ := exec_cases i s
  refine ⟨e, r, hx, ?_⟩
  rcases hcase with ⟨rfl, rfl, -⟩ | ⟨p, rfl, hp, rfl, -⟩ | ⟨rfl, hp, rfl, -⟩ | ⟨rfl, rfl, -⟩ | ⟨⟨p, rfl⟩ | rfl, hp, rfl, -⟩
  · simp
  · simp [hp, absorb_H]
  · simp [hp, padEngine_H]
  · simp
  · simp [hp]
  · simp [hp]

/-- Settles O22: a step that leaves phase `FINALIZED` took an event, and RESET and the hardware reset are the only ones that
leave a ready state in phase `ABSORBING`. -/
theorem finalizedIsLeftOnlyByReset : Obligations.FinalizedIsLeftOnlyByReset := by
  intro s s' hready hfin h hready' habs
  obtain ⟨-, rfl⟩ | ⟨t, rest, hin, ht⟩ | ⟨rest, hin, rfl⟩ | ⟨rest, hin, rfl⟩ := step_next h
  · cases hfin.symm.trans habs
  · have hd := decode_reset_of_leaves_finalized hin hfin h habs
    rw [transaction_of_decode_reset (transact_next ht).2.1 hd] at hin
    exact .inl ⟨rest, hin⟩
  · exact .inr ⟨rest, hin⟩
  · cases hready'

end

section
/-! One event (20_memory.md section 5, 60_exceptions.md section 4, 70_reset_and_hazards.md section 1): the command that a
transaction runs, the host's duties, the resets and the power cycle. -/

namespace Sys2Proof.Machine

/-- Rule R103: another length than `N`. -/
theorem wf_eq_false_iff_length (t : Transaction) : t.wf = false ↔ t.payload.length ≠ (nField t.cw).toNat := by
  rw [← Bool.not_eq_true, wf_iff_length]

theorem exec_reset_eq (s : State) : exec .reset s =
    .next { s with engine := Engine.s0 s.variant, outbox := s.outbox ++ [{ rw := 0x00000000, dout := [] }] } := by
  rw [← okResponse_eq]
  exact execReset_eq s

end Sys2Proof.Machine

open Sys2Proof Sys2Proof.Machine

/-- Settles O6: an admitted transaction that decodes runs its command, and an encoding decodes to its command. -/
theorem stepRunsThePresentedCommand : Obligations.StepRunsThePresentedCommand := by
  refine ⟨fun s t rest i hr hw hin hd => ?_, fun s i hr hi => ?_⟩
  · rw [step_command hin]
    exact transact_ok (s := s.take rest) hr hw hd
  · exact step_presentAll_encode hr hi []

/-- Settles O7: with an empty interface there is no event to take. -/
theorem idleStepKeepsTheState : Obligations.IdleStepKeepsTheState := fun _ => step_idle

/-- Settles O8: the checks of an event, in the order in which the model makes them. -/
theorem hostDutiesNotMetAreRefused : Obligations.HostDutiesNotMetAreRefused := by
  refine fun s t rest => ⟨fun hin hr => ?_, fun hin hr hlen => ?_, fun hin => step_event hin, fun hin => step_event hin⟩
  · rw [step_command hin]
    exact transact_beforeReset (s := s.take rest) t hr
  · rw [step_command hin]
    exact transact_malformed (s := s.take rest) hr ((wf_eq_false_iff_length t).2 hlen)

/-- Settles O14: RESET has no operand, so it has one word, and both resets leave `S0`. -/
theorem resetGivesTheInitialState : Obligations.ResetGivesTheInitialState := by
  refine ⟨fun t => decode_noOperand_iff (i := .reset) nofun t, fun t ho hne => ?_, fun s => ?_⟩
  · exact answeredIllegal_of_noOperand (.inl ho) (ho ▸ hne)
  · exact ⟨Engine.s0 s.variant, exec_reset_eq s, rfl, rfl, rfl, by simp, by simp, rfl⟩

/-- Settles O23: a power cycle leaves a state that is not ready, and the hardware reset makes it ready in `S0`. -/
theorem powerUpNeedsTheHardwareReset : Obligations.PowerUpNeedsTheHardwareReset := by
  refine fun s rest hin => ⟨_, step_event hin, rfl, rfl, rfl, fun tr more hrest => ?_, fun more hrest => ?_⟩
  · rw [step_command (s := powerUp (s.take rest)) hrest]
    exact transact_beforeReset tr rfl
  · exact ⟨_, step_event (s := powerUp (s.take rest)) hrest, rfl⟩

end

section
/-! The big-endian conversions (00_scope.md rule R15), and the schedule of the all-zero block (41_compression.md rule
R184). -/

namespace Sys2Proof.Machine

/-- The last byte is the least significant. -/
theorem bytesBe_succ (n x : Nat) : bytesBe (n + 1) x = bytesBe n (x / 256) ++ [BitVec.ofNat 8 x] := by
  simp only [bytesBe, List.range_succ, List.map_append, List.map_cons, List.map_nil]
  congr 1
  · refine List.map_congr_left fun i hi => ?_
    have hi := List.mem_range.1 hi
    have hpos : 8 * (n + 1 - 1 - i) = 8 + 8 * (n - 1 - i) := by omega
    rw [hpos, Nat.shiftRight_add, Nat.shiftRight_eq_div_pow x 8]
  · simp

theorem beNat_bytesBe (n x : Nat) : beNat (bytesBe n x) = x % 2 ^ (8 * n) := by
  induction n generalizing x with
  | zero => rw [Nat.mul_zero, Nat.pow_zero, Nat.mod_one]; rfl
  | succ n ih =>
    have hlast : beNat [BitVec.ofNat 8 x] = x % 256 := by simp [beNat]
    rw [bytesBe_succ, beNat_append, ih, hlast, two_pow_byte_succ, Nat.mod_mul, List.length_singleton]
    omega

theorem bytesBe_beNat (s : List Byte) : bytesBe s.length (beNat s) = s := by
  refine List.ext_getElem (bytesBe_length _ _) fun j hj hj' => ?_
  have hbyte : (bytesBe s.length (beNat s))[j]? = some s[j] := by
    rw [bytesBe_getElem? hj', Nat.shiftRight_eq_div_pow]
    refine congrArg some (BitVec.eq_of_toNat_eq ?_)
    rw [BitVec.toNat_ofNat, beNat_byte hj']
  rwa [List.getElem?_eq_getElem hj, Option.some_inj] at hbyte

variable {v : Variant}

/-- The recurrence of rule R176 on zero words. -/
theorem nextScheduleWord_zeros (n : Nat) : nextScheduleWord (List.replicate n (0 : Word v)) = 0 := by
  have hget (k : Nat) : (List.replicate n (0 : Word v)).getD k 0 = 0 := by
    rw [List.getD_eq_getElem?_getD, List.getElem?_getD_replicate_default_eq]
  obtain ⟨-, -, -, h0, h1, -⟩ := sigmaFunctionsOnZeroAndAllOnes v
  simp only [nextScheduleWord, hget, h0, h1]
  simp

theorem extendSchedule_zeros (n k : Nat) :
    extendSchedule n (List.replicate k (0 : Word v)) = List.replicate (k + n) 0 := by
  induction n generalizing k with
  | zero => rfl
  | succ n ih =>
    rw [extendSchedule, nextScheduleWord_zeros, ← List.replicate_succ', ih, Nat.add_right_comm]
    rfl

theorem beNat_zeros (n : Nat) : beNat (zeros n) = 0 := by
  induction n with
  | zero => rfl
  | succ n ih => rw [zeros, List.replicate_succ, beNat_cons, ← zeros, ih]; simp

theorem parseBlock_zeros (v : Variant) (n : Nat) : parseBlock v (zeros n) = List.replicate 16 0 := by
  have hword (t : Nat) : beWord v (((zeros n).drop (v.NB * t)).take v.NB) = 0 := by
    rw [zeros, List.drop_replicate, List.take_replicate, ← zeros, beWord, beNat_zeros, BitVec.ofNat_eq_ofNat]
  simp only [parseBlock, hword]
  rfl

theorem schedule_zeros (v : Variant) (n : Nat) : schedule v (zeros n) = List.replicate v.R 0 := by
  rw [schedule, parseBlock_zeros, extendSchedule_zeros]
  cases v <;> rfl

end Sys2Proof.Machine

open Sys2Proof Sys2Proof.Machine

/-- Settles O57: `bytes_be` by its last byte, and `be` by the place of each byte. -/
theorem bigEndianConversionsAreInverse : Obligations.BigEndianConversionsAreInverse :=
  ⟨fun n x => ⟨bytesBe_length n x, beNat_bytesBe n x⟩, fun s => ⟨beNat_lt s, bytesBe_beNat s⟩, beNat_append⟩

/-- Settles O53: the words of the block are zero, and the recurrence makes zero of zeros. -/
theorem allZeroBlockHasAZeroSchedule : Obligations.AllZeroBlockHasAZeroSchedule := by
  intro v t ht
  rw [schedule_zeros, List.getElem?_replicate_of_lt ht]

end
